-- ==== Sys2Proof/Word.lean ====
section
/-! DEFINITION. The plainest types: symbols, bytes and characters of text
(spec/00_scope.md R4 to R6). An integer value (stack element, heap address, heap value, operand) is
Lean's `Int`: a mathematical integer (R4: `INT_BITS` none), no bit vector, and it never wraps. -/

namespace Sys2Proof

/-- One symbol of the three-symbol alphabet (R6): `A` is space, `B` is tab, `C` is newline. -/
inductive Symbol where
  | A
  | B
  | C
  deriving DecidableEq, Repr

/-- One byte of the byte form of a program. -/
abbrev Byte := BitVec 8

/-- A line or a whole text of the mnemonic form, as its characters. -/
abbrev Text := List Char

end Sys2Proof
end

