-- ==== Sys2Proof/Config.lean ====
section
/-! DEFINITION. What an implementation fixes (the parameters of spec/00_scope.md R4, at the value the
spec takes) and the free values (opaque constants with no body: spec/93_implementation_defined.md
U6, U7, U10). -/

namespace Sys2Proof

/-- The finite-capacity parameters of R4, `none` for unbounded. -/
structure Limits where
  /-- `INT_BITS`: width of a signed integer value. -/
  intBits : Option Nat
  /-- `STACK_CAP`: most elements of the operand stack. -/
  stackCap : Option Nat
  /-- `CALL_CAP`: most entries of the call-return stack. -/
  callCap : Option Nat
  /-- `PROG_MAX`: most instructions of a Program. -/
  progMax : Option Nat
  deriving DecidableEq, Repr

/-- The two sign conventions of MOD that R152 names. -/
inductive ModConvention where
  | truncated   -- sign of the left operand
  | floored     -- sign of the right operand
  deriving DecidableEq, Repr

/-- What the I/O channel answers to one read (R136: a value, no answer, or `fail`). -/
inductive ChanAnswer where
  | value (v : Int)
  | fail
  | silent      -- the read never answers
  deriving DecidableEq, Repr, Inhabited

namespace Config

/-- The value the spec takes for all four capacities: none (R4, 92 D1 and D2; log entry 6, DESIGN CHOICE). -/
def limits : Limits := ⟨none, none, none, none⟩

/-- `MOD_CONVENTION` (R4, R152, 92 D4; log entry 7, DESIGN CHOICE). -/
def modConvention : ModConvention := .truncated

/-- `SYMBOL_BYTES` (R4, R50, 92 D14; log entry 8, PRESUMED): ASCII space, tab, line feed. -/
def symbolByte : Symbol → Byte
  | .A => 0x20
  | .B => 0x09
  | .C => 0x0A

/-- `LINE_SEP` (R4, R68, 92 D15; log entry 9, DESIGN CHOICE): the single character U+000A. -/
def lineSep : Char := '\n'

/-- Free value: what the channel answers to a read that no scripted answer covers (R130: "no rule
of this spec constrains" it; 93 U10; log entry 4, DESIGN CHOICE). -/
opaque freeAnswer : Nat → ChanAnswer

/-- Free value: `pc` once `T` is true, and after a RuntimeFault (93 U6, U7; log entries 10, 2). -/
opaque freePc : Nat → Nat

/-- Free value: `S` after a RuntimeFault (R210, 93 U7; log entry 2, DESIGN CHOICE). -/
opaque freeStack : Nat → List Int

/-- Free value: the cells of `H` after a RuntimeFault, as stores to an empty heap (R210, 93 U7;
log entry 2, DESIGN CHOICE). -/
opaque freeCells : Nat → List (Int × Int)

/-- Free value: `R` after a RuntimeFault (R210, 93 U7; log entry 2, DESIGN CHOICE). -/
opaque freeCalls : Nat → List Nat

end Config

end Sys2Proof
end

