-- ==== Sys2Proof/Syntax.lean ====
section
/-! DEFINITION. The instruction set (spec/30_encoding.md R51 to R53): the closed enumeration of 24
operations, the Instruction as a pair (Operation, operand), and `Instr`, one constructor per
operation with an operand of the operation's kind. -/

namespace Sys2Proof

/-- The 24 operations, in the source's order of families (R52). -/
inductive Operation where
  | readch | readi | writech | writei
  | push | dup | swap | pop | copy | drop
  | add | sub | mul | div | mod
  | label | call | jmp | jmpzero | jmpneg | ret | exit
  | store | load
  deriving DecidableEq, Repr

/-- The operand kinds of R53. -/
inductive OperandKind where
  | none
  | sint
  | uint
  deriving DecidableEq, Repr

/-- An Instruction as the pair of R51, before any check: "(Operation, operand)", the operand in ℤ.
`WellFormed.lean` says which pairs are well formed. -/
structure RawInstr where
  op : Operation
  operand : Int
  deriving DecidableEq, Repr

/-- A well-formed Instruction: one constructor per row of spec/opcode_table.json. A zero-arity
operation carries no operand (R51 a: the stored operand is 0), PUSH, COPY and DROP carry any
integer (R51 b), the label family carries a label number in ℕ (R51 c, 90 C5). -/
inductive Instr where
  | readch
  | readi
  | writech
  | writei
  | push (v : Int)
  | dup
  | swap
  | pop
  | copy (n : Int)
  | drop (n : Int)
  | add
  | sub
  | mul
  | div
  | mod
  | label (n : Nat)
  | call (n : Nat)
  | jmp (n : Nat)
  | jmpzero (n : Nat)
  | jmpneg (n : Nat)
  | ret
  | exit
  | store
  | load
  deriving DecidableEq, Repr

/-- A Program: "an immutable ordered sequence of Instruction" (spec/10_state.md R18). -/
abbrev Program := List Instr

/-- The codec's errors (spec/60_exceptions.md R202), each raised by a codec operation and never by
the engine. Safe: a codec operation that fails produces no instruction. -/
inductive FormatError where
  /-- FE1: the symbols leave the decode tree, or the buffer ends inside a code. Raised by `decodeBinary`. -/
  | unrecognizedPrefix
  /-- FE2: the buffer ends inside an integer field, the sign position included. Raised by `decodeUInt`, `decodeSInt`. -/
  | missingTerminator
  /-- FE3: `C` at the sign position. Raised by `decodeSInt`. -/
  | invalidSign
  /-- FE4: the first token is no mnemonic. Raised by `decodeText`. -/
  | unknownMnemonic
  /-- FE5: an operand-bearing mnemonic with one token. Raised by `decodeText`. -/
  | missingOperand
  /-- FE6: the operand token is not of the form of R67. Raised by `decodeText`. -/
  | nonNumericOperand
  /-- FE7: a label-family operand below 0. Raised by `decodeText`. -/
  | negativeLabel
  /-- FE8: more than two tokens. Raised by `decodeText`. -/
  | tooManyTokens
  /-- FE9: a second token after a zero-arity mnemonic. Raised by `decodeText`. -/
  | unexpectedOperand
  /-- FE10: the argument of an encoder is not well formed. Raised by `RawInstr.check`. -/
  | illFormedInstruction
  /-- FE11: a decoded operand outside a finite `INT_BITS` (R209). Raised by the decoders, and only
  where `Config.limits` is finite. -/
  | operandRange
  deriving DecidableEq, Repr

end Sys2Proof
end

