-- ==== Sys2Proof/WellFormed.lean ====
section
/-! DEFINITION. Well-formed instructions (spec/30_encoding.md R51), over the raw pair
(Operation, operand), and the passage between the raw pair and `Instr`. -/

namespace Sys2Proof

/-- The operand kind of each operation (R53). -/
def Operation.kind : Operation → OperandKind
  | .readch => .none
  | .readi => .none
  | .writech => .none
  | .writei => .none
  | .push => .sint
  | .dup => .none
  | .swap => .none
  | .pop => .none
  | .copy => .sint
  | .drop => .sint
  | .add => .none
  | .sub => .none
  | .mul => .none
  | .div => .none
  | .mod => .none
  | .label => .uint
  | .call => .uint
  | .jmp => .uint
  | .jmpzero => .uint
  | .jmpneg => .uint
  | .ret => .none
  | .exit => .none
  | .store => .none
  | .load => .none

/-- R51: a zero-arity operation's operand is 0; a signed operand is any integer; a label-family
operand is in ℕ. -/
def RawInstr.wellFormed (r : RawInstr) : Bool :=
  match r.op.kind with
  | .none => r.operand == 0
  | .sint => true
  | .uint => decide (0 ≤ r.operand)

/-- The operation of an instruction. -/
def Instr.op : Instr → Operation
  | .readch => .readch
  | .readi => .readi
  | .writech => .writech
  | .writei => .writei
  | .push _ => .push
  | .dup => .dup
  | .swap => .swap
  | .pop => .pop
  | .copy _ => .copy
  | .drop _ => .drop
  | .add => .add
  | .sub => .sub
  | .mul => .mul
  | .div => .div
  | .mod => .mod
  | .label _ => .label
  | .call _ => .call
  | .jmp _ => .jmp
  | .jmpzero _ => .jmpzero
  | .jmpneg _ => .jmpneg
  | .ret => .ret
  | .exit => .exit
  | .store => .store
  | .load => .load

/-- The operand of an instruction; "still stored as 0" where the operation takes none (R51). -/
def Instr.operand : Instr → Int
  | .readch => 0
  | .readi => 0
  | .writech => 0
  | .writei => 0
  | .push v => v
  | .dup => 0
  | .swap => 0
  | .pop => 0
  | .copy n => n
  | .drop n => n
  | .add => 0
  | .sub => 0
  | .mul => 0
  | .div => 0
  | .mod => 0
  | .label n => n
  | .call n => n
  | .jmp n => n
  | .jmpzero n => n
  | .jmpneg n => n
  | .ret => 0
  | .exit => 0
  | .store => 0
  | .load => 0

/-- An instruction as the pair of R51. -/
def Instr.toRaw (i : Instr) : RawInstr := ⟨i.op, i.operand⟩

/-- The instruction of an operation and an operand of its kind. The operand is not looked at where
the operation takes none, and taken as a label number (below 0: as 0) for the label family;
`RawInstr.check` lets no ill-formed pair reach it. -/
def Operation.withOperand : Operation → Int → Instr
  | .readch, _ => .readch
  | .readi, _ => .readi
  | .writech, _ => .writech
  | .writei, _ => .writei
  | .push, v => .push v
  | .dup, _ => .dup
  | .swap, _ => .swap
  | .pop, _ => .pop
  | .copy, n => .copy n
  | .drop, n => .drop n
  | .add, _ => .add
  | .sub, _ => .sub
  | .mul, _ => .mul
  | .div, _ => .div
  | .mod, _ => .mod
  | .label, n => .label n.toNat
  | .call, n => .call n.toNat
  | .jmp, n => .jmp n.toNat
  | .jmpzero, n => .jmpzero n.toNat
  | .jmpneg, n => .jmpneg n.toNat
  | .ret, _ => .ret
  | .exit, _ => .exit
  | .store, _ => .store
  | .load, _ => .load

/-- R100, 92 D18: an ill-formed pair is refused with `IllFormedInstruction` (log entry 19, DESIGN CHOICE). -/
def RawInstr.check (r : RawInstr) : Except FormatError Instr :=
  if r.wellFormed then .ok (r.op.withOperand r.operand) else .error .illFormedInstruction

end Sys2Proof
end

