-- ==== Sys2Proof/Decode.lean ====
section
/-! DEFINITION. The binary codec (spec/30_encoding.md, spec/40_codec.md): the variable-length integer
fields, one instruction, a whole program, and the host's reading of an opcode-table word. Decoding is
total: every buffer gives a result or a FormatError. -/

namespace Sys2Proof

/-! ### Range of a decoded operand (R209) -/

/-- R209: `v` is in the signed range of `INT_BITS`; every integer is where that is none. -/
def Limits.admitsValue (L : Limits) (v : Int) : Bool :=
  match L.intBits with
  | none => true
  | some b => decide (-(2 ^ (b - 1) : Int) ≤ v ∧ v < (2 ^ (b - 1) : Int))

/-- R209: a decoder returns no operand outside the range. -/
def inRange {α : Type} (L : Limits) (v : Int) (r : α) : Except FormatError α :=
  if L.admitsValue v then .ok r else .error .operandRange

/-! ### The code table (R54) -/

/-- Every operation, in the order of R52. -/
def Operation.all : List Operation :=
  [.readch, .readi, .writech, .writei, .push, .dup, .swap, .pop, .copy, .drop, .add, .sub, .mul,
   .div, .mod, .label, .call, .jmp, .jmpzero, .jmpneg, .ret, .exit, .store, .load]

/-- The leading symbols that select an operation: the table of R54. -/
def Operation.code : Operation → List Symbol
  | .push => [.A, .A]
  | .dup => [.A, .C, .A]
  | .swap => [.A, .C, .B]
  | .pop => [.A, .C, .C]
  | .copy => [.A, .B, .A]
  | .drop => [.A, .B, .C]
  | .add => [.B, .A, .A, .A]
  | .sub => [.B, .A, .A, .B]
  | .mul => [.B, .A, .A, .C]
  | .div => [.B, .A, .B, .A]
  | .mod => [.B, .A, .B, .B]
  | .label => [.C, .A, .A]
  | .call => [.C, .A, .B]
  | .jmp => [.C, .A, .C]
  | .jmpzero => [.C, .B, .A]
  | .jmpneg => [.C, .B, .B]
  | .ret => [.C, .B, .C]
  | .exit => [.C, .C, .C]
  | .readch => [.B, .C, .B, .A]
  | .readi => [.B, .C, .B, .B]
  | .writech => [.B, .C, .A, .A]
  | .writei => [.B, .C, .A, .B]
  | .store => [.B, .B, .A]
  | .load => [.B, .B, .B]

/-- The operation whose code the buffer starts with; at most one exists (R56, R86). -/
def matchCode (buf : List Symbol) : Option Operation :=
  Operation.all.find? (fun op => op.code.isPrefixOf buf)

/-! ### Decoding (R82, R84, R86) -/

/-- The digit a symbol stands for: `B` is 1, `A` is 0 (R58; never asked of `C`). -/
def Symbol.bit : Symbol → Nat
  | .B => 1
  | .A => 0
  | .C => 0

/-- The loop of R82 from the current symbol on, with `k` symbols consumed and `v` accumulated. -/
def decodeDigits : List Symbol → Nat → Nat → Except FormatError (Nat × Nat)
  | [], _, _ => .error .missingTerminator
  | .C :: _, k, v => .ok (k + 1, v)
  | .A :: rest, k, v => decodeDigits rest (k + 1) (v * 2 + Symbol.A.bit)
  | .B :: rest, k, v => decodeDigits rest (k + 1) (v * 2 + Symbol.B.bit)

/-- `decodeUInt(buf, o)` (R82): symbols consumed and value. -/
def decodeUInt (buf : List Symbol) (o : Nat) : Except FormatError (Nat × Nat) :=
  decodeDigits (buf.drop o) 0 0

/-- `decodeSInt(buf, o)` (R84): symbols consumed and value. -/
def decodeSInt (buf : List Symbol) (o : Nat) : Except FormatError (Nat × Int) :=
  match buf.drop o with
  | [] => .error .missingTerminator
  | .C :: _ => .error .invalidSign
  | .A :: _ =>
    match decodeUInt buf (o + 1) with
    | .error e => .error e
    | .ok (k, m) => .ok (k + 1, (m : Int))
  | .B :: _ =>
    match decodeUInt buf (o + 1) with
    | .error e => .error e
    | .ok (k, m) => .ok (k + 1, -(m : Int))

/-- The operand field of an operation, at offset `o` (R53, R86): symbols consumed and operand. -/
def decodeOperand (op : Operation) (buf : List Symbol) (o : Nat) : Except FormatError (Nat × Int) :=
  match op.kind with
  | .none => .ok (0, 0)
  | .sint => decodeSInt buf o
  | .uint =>
    match decodeUInt buf o with
    | .error e => .error e
    | .ok (k, m) => .ok (k, (m : Int))

/-- `decodeBinary(buf, o)` with the range check of R209 under limits `L`. -/
def decodeBinaryWithin (L : Limits) (buf : List Symbol) (o : Nat) : Except FormatError (Nat × Instr) :=
  match matchCode (buf.drop o) with
  | none => .error .unrecognizedPrefix
  | some op =>
    match decodeOperand op buf (o + op.code.length) with
    | .error e => .error e
    | .ok (k, n) => inRange L n (op.code.length + k, op.withOperand n)

/-- `decodeBinary(buf, o)` (R86): symbols consumed and the instruction. -/
def decodeBinary (buf : List Symbol) (o : Nat) : Except FormatError (Nat × Instr) :=
  decodeBinaryWithin Config.limits buf o

/-! ### Encoding (R81, R83, R85) -/

/-- The binary digits of `v`, most significant first, none for 0; `fuel` is at least the bit length. -/
def binaryDigits : Nat → Nat → List Symbol
  | 0, _ => []
  | fuel + 1, v =>
    if v = 0 then [] else binaryDigits fuel (v / 2) ++ [if v % 2 = 1 then Symbol.B else Symbol.A]

/-- `encodeUInt(v)` (R81). -/
def encodeUInt (v : Nat) : List Symbol := binaryDigits v v ++ [.C]

/-- `encodeSInt(v)` (R83): the sign symbol, then the absolute value. -/
def encodeSInt (v : Int) : List Symbol :=
  if 0 ≤ v then .A :: encodeUInt v.toNat else .B :: encodeUInt (-v).toNat

/-- `encodeBinary(i)` of a well-formed instruction (R85). -/
def encodeBinary (i : Instr) : List Symbol :=
  match i.op.kind with
  | .none => i.op.code
  | .sint => i.op.code ++ encodeSInt i.operand
  | .uint => i.op.code ++ encodeUInt i.operand.toNat

/-- `encodeBinary` of a raw pair: an ill-formed one has no encoding (R100). -/
def encodeBinaryRaw (r : RawInstr) : Except FormatError (List Symbol) :=
  match r.check with
  | .error e => .error e
  | .ok i => .ok (encodeBinary i)

/-! ### A whole program (R91 to R93) -/

/-- The symbol a byte stands for; every other byte is a comment (R50, R63). -/
def byteSymbol (b : Byte) : Option Symbol :=
  if b = Config.symbolByte .A then some .A
  else if b = Config.symbolByte .B then some .B
  else if b = Config.symbolByte .C then some .C
  else none

/-- `strip(bytes)` (R91). -/
def strip (bytes : List Byte) : List Symbol := bytes.filterMap byteSymbol

/-- The loop of R92 from offset `o`; `fuel` is at least the number of symbols left, and every
decoded instruction consumes at least 3, so the first case is met only with no symbol left. -/
def assembleFrom : Nat → List Symbol → Nat → Except FormatError Program
  | 0, _, _ => .ok []
  | fuel + 1, buf, o =>
    if buf.length ≤ o then .ok []
    else
      match decodeBinary buf o with
      | .error e => .error e
      | .ok (l, i) =>
        match assembleFrom fuel buf (o + l) with
        | .error e => .error e
        | .ok rest => .ok (i :: rest)

/-- `assemble` of a stripped buffer. -/
def assembleSymbols (buf : List Symbol) : Except FormatError Program :=
  assembleFrom buf.length buf 0

/-- `assemble(bytes)` (R92). -/
def assemble (bytes : List Byte) : Except FormatError Program := assembleSymbols (strip bytes)

/-- The binary form of a Program as symbols (R64). -/
def disassembleSymbols (P : Program) : List Symbol := P.flatMap encodeBinary

/-- `disassemble(P)` (R93): each symbol as its byte. -/
def disassemble (P : Program) : List Byte := (disassembleSymbols P).map Config.symbolByte

/-- `disassemble` of raw pairs: the first ill-formed one ends it (R100, R202 FE10). -/
def disassembleRaw : List RawInstr → Except FormatError (List Byte)
  | [] => .ok []
  | r :: rest =>
    match encodeBinaryRaw r with
    | .error e => .error e
    | .ok syms =>
      match disassembleRaw rest with
      | .error e => .error e
      | .ok bytes => .ok (syms.map Config.symbolByte ++ bytes)

/-! ### Code numbers of the errors (R202) -/

/-- The spec's code number of a FormatError. -/
def FormatError.number : FormatError → Nat
  | .unrecognizedPrefix => 1
  | .missingTerminator => 2
  | .invalidSign => 3
  | .unknownMnemonic => 4
  | .missingOperand => 5
  | .nonNumericOperand => 6
  | .negativeLabel => 7
  | .tooManyTokens => 8
  | .unexpectedOperand => 9
  | .illFormedInstruction => 10
  | .operandRange => 11

/-! ### The opcode table's packing (R70) -/

/-- Two bits a symbol: `A` = 00, `B` = 01, `C` = 10 (R70). -/
def Symbol.pair : Symbol → Nat
  | .A => 0
  | .B => 1
  | .C => 2

/-- Symbols packed with the first in the most significant pair (R70). -/
def packSymbols (syms : List Symbol) : Nat := syms.foldl (fun acc c => acc * 4 + c.pair) 0

/-- The instruction of an opcode-table word. R70: the word packs the code symbols alone and "is a
notation of the table and not a property of the hardware"; the row is the one whose packed code is
`w`. Its operand field, to which the table gives no bits, is the zero operand: digit symbol `A`
(pair 00; for a signed field it is the sign), then the terminator `C`, which a field must have. The
symbols are laid out as bytes and given to the decoder, which reads no operand field where the
operation has none (log entry 11, DESIGN CHOICE). -/
def decodeTableWord (nbits w : Nat) : Option Instr :=
  match Operation.all.find? (fun op => packSymbols op.code == w && decide (2 * op.code.length ≤ nbits)) with
  | none => none
  | some op =>
    match decodeBinary (strip ((op.code ++ [Symbol.A, Symbol.C]).map Config.symbolByte)) 0 with
    | .error _ => none
    | .ok (_, i) => some i

end Sys2Proof
end

