-- ==== Sys2Proof/Machine/State.lean ====
section
/-! DEFINITION. The machine's state as plain data (spec/10_state.md R16), its reset value
(spec/70_reset_and_hazards.md R230), and the reasons a step can end. -/

namespace Sys2Proof.Machine

/-- The RuntimeFault kinds (spec/60_exceptions.md R201), the values of the fault status `F`. -/
inductive RuntimeFault where
  /-- RF1: a pop finds the operand stack empty. -/
  | stackUnderflow
  /-- RF2: COPY with `n < 0` or `n ≥ len(S)`. -/
  | copyOutOfRange
  /-- RF3: DROP with `n < 0` or `n + 1 > len(S)`. -/
  | dropOutOfRange
  /-- RF4: DIV or MOD with right operand 0. -/
  | divideByZero
  /-- RF5: a taken branch finds no LABEL of its number. -/
  | unresolvedLabel
  /-- RF6: RET with the call-return stack empty. -/
  | callStackEmpty
  /-- RF7: a step with `pc` at or past the end of the Program. -/
  | pcOutOfRange
  /-- RF8: the channel read answers `fail`. -/
  | ioFailure
  /-- RF9: a value or a stack outside a finite parameter (R209). -/
  | resourceLimit
  deriving DecidableEq, Repr

/-- One channel operation the engine has performed (spec/42_io.md R131). -/
inductive Event where
  | rdChar (c : Int)
  | rdInt (v : Int)
  | wrChar (v : Int)
  | wrInt (v : Int)
  deriving DecidableEq, Repr

/-- The heap as data: (address, value) cells, addresses strictly rising, no cell holding 0, which is
what an unlisted address reads as (R12). The cell holds one whole integer (R31, R32; log entry 1,
DESIGN CHOICE). -/
abbrev Memory := List (Int × Int)

/-- The whole state of one engine. -/
structure State where
  /-- `S`, the operand stack: bottom first, top at the end (R11). -/
  stack : List Int
  /-- `H`, the heap (R12). -/
  heap : Memory
  /-- `R`, the call-return stack: top at the end (R14). -/
  calls : List Nat
  /-- `pc`, the index of the instruction to execute (R13). -/
  pc : Nat
  /-- `T`, the terminated flag (R15). -/
  terminated : Bool
  /-- `F`, the fault status (R17). -/
  fault : Option RuntimeFault
  /-- `P`, the bound Program: a parameter of the step (R7, R18), held here because a step has no
  other argument (log entry 3, DESIGN CHOICE). -/
  program : Program
  /-- The event trace, oldest first (R131; log entry 23, DESIGN CHOICE). -/
  trace : List Event
  /-- The model's own: the host's scripted answers to the next channel reads (log entry 4, DESIGN CHOICE). -/
  answers : List ChanAnswer
  /-- The model's own: the index of the next free value (log entry 5, DESIGN CHOICE). -/
  draws : Nat
  deriving DecidableEq, Repr

/-- The state of a fresh engine (R230), with no Program bound yet. -/
def State.reset : State where
  stack := []
  heap := []
  calls := []
  pc := 0
  terminated := false
  fault := none
  program := []
  trace := []
  answers := []
  draws := 0

/-- Reasons a step has no successor state. A RuntimeFault is not one of them: it is a next state
with `F` set (R210). -/
inductive Fault where
  /-- Raised by READCH and READI when the channel never answers: "the machine is stuck inside
  READCH or READI" (R136; log entry 15, DESIGN CHOICE). A stuck state of the model: not final, not
  faulted. Safe. -/
  | channelNeverAnswers
  deriving DecidableEq, Repr

/-- Reasons a step is refused. -/
inductive Refusal where
  /-- Raised by `exec`'s arm of an instruction that has no meaning yet; no arm is left so. Safe. -/
  | notModelled (mnemonic : String)
  /-- Raised by `step` on a final state: "no further steps are valid until state is reset" (R121,
  92 D13; log entry 16, DESIGN CHOICE). Safe. -/
  | stepAfterTermination
  /-- Raised by `step` on a faulted state: it "has no enabled step" (R122; log entry 16,
  DESIGN CHOICE). Safe. -/
  | stepAfterFault (kind : RuntimeFault)
  deriving DecidableEq, Repr

/-- The outcome of a step or of an instruction. -/
abbrev Outcome := Host.Outcome State Fault Refusal

end Sys2Proof.Machine
end

