-- ==== Sys2Proof/Machine/Ops.lean ====
section
/-! DEFINITION. The named operations every instruction rule is written with (spec/00_scope.md R8): the
heap, the two stacks, the channel, the program counter, label resolution, and raising a RuntimeFault.
An operation that goes on takes the rest of the rule as its last argument, so that a rule reads in
the order of its pseudocode and a raise ends it (R8, spec/41_sequencer.md R114). -/

namespace Sys2Proof.Machine

/-! ### Updates of one component -/

/-- Replace the operand stack. -/
def State.setStack (s : State) (S : List Int) : State := { s with stack := S }

/-- Replace the heap. -/
def State.setHeap (s : State) (H : Memory) : State := { s with heap := H }

/-- Replace the call-return stack. -/
def State.setCalls (s : State) (R : List Nat) : State := { s with calls := R }

/-- Replace the program counter. -/
def State.setPc (s : State) (t : Nat) : State := { s with pc := t }

/-- Replace the terminated flag. -/
def State.setTerminated (s : State) (T : Bool) : State := { s with terminated := T }

/-- Replace the fault status. -/
def State.setFault (s : State) (F : Option RuntimeFault) : State := { s with fault := F }

/-- Bind a Program. -/
def State.setProgram (s : State) (P : Program) : State := { s with program := P }

/-- Append one event to the trace (R131). -/
def State.record (s : State) (e : Event) : State := { s with trace := s.trace ++ [e] }

/-- Replace the scripted answers. -/
def State.setAnswers (s : State) (as : List ChanAnswer) : State := { s with answers := as }

/-- Use up one free value. -/
def State.draw (s : State) : State := { s with draws := s.draws + 1 }

/-! ### The heap (spec/10_state.md R12, spec/20_memory.md R31 to R38) -/

/-- The canonical form: addresses strictly rising and no cell equal to what an unlisted one reads as. -/
abbrev Memory.wf (H : Memory) : Prop :=
  H.Pairwise (fun c d => c.1 < d.1) ∧ ∀ c ∈ H, c.2 ≠ 0

/-- `H[a]`: the integer last stored at `a`, 0 if none was (R12, R32). -/
def Memory.read (H : Memory) (a : Int) : Int :=
  match H with
  | [] => 0
  | (b, w) :: rest => if b = a then w else Memory.read rest a

/-- Put a cell in its place by address, before the first greater one. -/
def Memory.insert (H : Memory) (a v : Int) : Memory :=
  match H with
  | [] => [(a, v)]
  | (b, w) :: rest => if a < b then (a, v) :: (b, w) :: rest else (b, w) :: Memory.insert rest a v

/-- `H` with `H[a] = v` (R8 `MemWrite`, R32): the old cell goes, and a 0 lists none. -/
def Memory.write (H : Memory) (a v : Int) : Memory :=
  if v = 0 then H.filter (fun c => c.1 != a) else Memory.insert (H.filter (fun c => c.1 != a)) a v

/-- The heap that a list of stores to the empty heap leaves. -/
def Memory.ofCells (cells : List (Int × Int)) : Memory :=
  cells.foldl (fun H c => Memory.write H c.1 c.2) []

/-! ### Raising a RuntimeFault (spec/60_exceptions.md R210) -/

/-- `raise RuntimeFault(k)`: `F <- k`; `T` stays as it is; the trace keeps every event recorded
before; S, H, R and pc are "not defined", so each is a free value (93 U7; log entry 2, DESIGN CHOICE). Control goes
nowhere: `step` has no transition from the state this gives (R122, R211). -/
def raise (k : RuntimeFault) (s : State) : Outcome :=
  .next
    { s with
      fault := some k
      stack := Config.freeStack s.draws
      heap := Memory.ofCells (Config.freeCells s.draws)
      calls := Config.freeCalls s.draws
      pc := Config.freePc s.draws
      draws := s.draws + 1 }

/-- Code number of a RuntimeFault kind (R201). -/
def RuntimeFault.number : RuntimeFault → Nat
  | .stackUnderflow => 1
  | .copyOutOfRange => 2
  | .dropOutOfRange => 3
  | .divideByZero => 4
  | .unresolvedLabel => 5
  | .callStackEmpty => 6
  | .pcOutOfRange => 7
  | .ioFailure => 8
  | .resourceLimit => 9

/-! ### Finite parameters (R209) -/

/-- A push of `v` onto a stack of `len` elements stays within `INT_BITS` and `STACK_CAP`. -/
def admitsPush (L : Limits) (v : Int) (len : Nat) : Bool :=
  L.admitsValue v && (match L.stackCap with | none => true | some c => decide (len + 1 ≤ c))

/-- An rpush of `v` onto a call-return stack of `len` entries stays within `INT_BITS` and `CALL_CAP`. -/
def admitsCall (L : Limits) (v len : Nat) : Bool :=
  L.admitsValue v && (match L.callCap with | none => true | some c => decide (len + 1 ≤ c))

/-- A Program of `len` instructions stays within `PROG_MAX`. -/
def admitsProgram (L : Limits) (len : Nat) : Bool :=
  match L.progMax with
  | none => true
  | some m => decide (len ≤ m)

/-! ### The operand stack (R8, R11) -/

/-- `push(v)` under limits `L`. -/
def pushWithin (L : Limits) (v : Int) (s : State) (rest : State → Outcome) : Outcome :=
  if admitsPush L v s.stack.length then rest (s.setStack (s.stack ++ [v])) else raise .resourceLimit s

/-- `push(v)`. -/
def push (v : Int) (s : State) (rest : State → Outcome) : Outcome :=
  pushWithin Config.limits v s rest

/-- `pop()`. -/
def pop (s : State) (rest : Int → State → Outcome) : Outcome :=
  match s.stack.getLast? with
  | none => raise .stackUnderflow s
  | some v => rest v (s.setStack s.stack.dropLast)

/-! ### The call-return stack (R8, R14) -/

/-- `rpush(v)` under limits `L`. -/
def rpushWithin (L : Limits) (v : Nat) (s : State) (rest : State → Outcome) : Outcome :=
  if admitsCall L v s.calls.length then rest (s.setCalls (s.calls ++ [v])) else raise .resourceLimit s

/-- `rpush(v)`. -/
def rpush (v : Nat) (s : State) (rest : State → Outcome) : Outcome :=
  rpushWithin Config.limits v s rest

/-- `rpop()`. -/
def rpop (s : State) (rest : Nat → State → Outcome) : Outcome :=
  match s.calls.getLast? with
  | none => raise .callStackEmpty s
  | some v => rest v (s.setCalls s.calls.dropLast)

/-! ### Heap access (R8, R32) -/

/-- `MemRead(a, 1)`. -/
def memRead (a : Int) (s : State) : Int := s.heap.read a

/-- `MemWrite(a, 1, v)` under limits `L`. -/
def memWriteWithin (L : Limits) (a v : Int) (s : State) (rest : State → Outcome) : Outcome :=
  if L.admitsValue a && L.admitsValue v then rest (s.setHeap (s.heap.write a v)) else raise .resourceLimit s

/-- `MemWrite(a, 1, v)`. -/
def memWrite (a v : Int) (s : State) (rest : State → Outcome) : Outcome :=
  memWriteWithin Config.limits a v s rest

/-! ### The I/O channel (spec/42_io.md R130, R136) -/

/-- The channel's answer to the next read, and the state with it used up: the next scripted answer,
or a free value where the script has none left (log entry 4, DESIGN CHOICE). -/
def takeAnswer (s : State) : ChanAnswer × State :=
  match s.answers with
  | a :: rest => (a, s.setAnswers rest)
  | [] => (Config.freeAnswer s.draws, s.draw)

/-- A channel read that is recorded as `mk v` (R131): a value goes on, `fail` raises `IoFailure`, no
answer is the stuck state (R136; log entry 15, DESIGN CHOICE). -/
def chanRead (mk : Int → Event) (s : State) (rest : Int → State → Outcome) : Outcome :=
  match (takeAnswer s).1 with
  | .value v => rest v ((takeAnswer s).2.record (mk v))
  | .fail => raise .ioFailure (takeAnswer s).2
  | .silent => .fault .channelNeverAnswers

/-- `ChanReadChar()`. -/
def chanReadChar (s : State) (rest : Int → State → Outcome) : Outcome := chanRead .rdChar s rest

/-- `ChanReadInt()`. -/
def chanReadInt (s : State) (rest : Int → State → Outcome) : Outcome := chanRead .rdInt s rest

/-- `ChanWriteChar(v)`: always succeeds (R136), the integer unchanged (R134). -/
def chanWriteChar (v : Int) (s : State) (rest : State → Outcome) : Outcome := rest (s.record (.wrChar v))

/-- `ChanWriteInt(v)`: always succeeds (R136). -/
def chanWriteInt (v : Int) (s : State) (rest : State → Outcome) : Outcome := rest (s.record (.wrInt v))

/-! ### The program counter (spec/41_sequencer.md R110 to R117) -/

/-- The default advance, which ends a rule that is not branch taken (R112). -/
def advance (s : State) : Outcome := .next (s.setPc (s.pc + 1))

/-- `pc <- t`, which ends a branch-taken rule (R112). -/
def jumpTo (t : Nat) (s : State) : Outcome := .next (s.setPc t)

/-- `findLabel(n)`: the index of the first `LABEL n` of the Program (R116). -/
def findLabel (P : Program) (n : Nat) : Option Nat := P.findIdx? (fun i => i == .label n)

/-- `pc <- findLabel(n)` (R116, R172). -/
def branchToLabel (n : Nat) (s : State) : Outcome :=
  match findLabel s.program n with
  | none => raise .unresolvedLabel s
  | some t => jumpTo t s

/-- The instruction at `pc`, if `pc` is a valid index (R111). -/
def fetch (s : State) : Option Instr := s.program[s.pc]?

/-- Why no step exists, if none does: the precondition `T = false and F = none` of R110 (R121, R122). -/
def stepRefusal (s : State) : Option Refusal :=
  if s.terminated then some .stepAfterTermination
  else
    match s.fault with
    | some k => some (.stepAfterFault k)
    | none => none

/-- The Program `P` with instruction `i` at index `k`; where `P` is shorter than `k`, copies of `i`
fill the gap. Used by `State.withFetchWord` only. -/
def placeAt (P : Program) (k : Nat) (i : Instr) : Program :=
  P.take k ++ List.replicate (k - P.length) i ++ i :: P.drop (k + 1)

end Sys2Proof.Machine
end

