-- ==== Sys2Proof/Machine/Operands.lean ====
section
/-! DEFINITION. The operand forms (spec/30_encoding.md R53, spec/43_stack.md R145 and R146,
spec/44_arith.md R150): two stack operands, a depth below the top, a count under the top. A literal,
a heap address and a label number are used as they are (R141, spec/46_heap.md R192, R116). -/

namespace Sys2Proof.Machine

/-- "pop b then a": with `S = [..., a, b]` the rest gets the left operand `a` and the right `b` (R150). -/
def popTwo (s : State) (rest : Int → Int → State → Outcome) : Outcome :=
  pop s fun b s => pop s fun a s => rest a b s

/-- The element at depth `n` below the top, 0 the top: `S[len(S)-1-n]`, if `0 ≤ n < len(S)`
(R11, R145; 90 C2, 92 D5; log entry 12, DESIGN CHOICE). -/
def elementAtDepth (S : List Int) (n : Int) : Option Int :=
  if 0 ≤ n ∧ n < S.length then S[S.length - 1 - n.toNat]? else none

/-- `S` without the `n` elements just below the top: `S[0 .. len(S)-1-n) ++ [t]`, if `0 ≤ n` and
`n + 1 ≤ len(S)` (R146; 92 D5; log entry 12, DESIGN CHOICE). -/
def slideUnderTop (S : List Int) (n : Int) : Option (List Int) :=
  if n < 0 ∨ n + 1 > S.length then none
  else some (S.take (S.length - 1 - n.toNat) ++ S.drop (S.length - 1))

end Sys2Proof.Machine
end

