-- ==== Sys2Proof/Machine/Arith.lean ====
section
/-! DEFINITION. ADD, SUB, MUL, DIV, MOD and the integer laws (spec/44_arith.md R150 to R158). -/

namespace Sys2Proof.Machine

/-- `tdiv(a, b)`, for `b ≠ 0`: the quotient truncating toward zero (R151). -/
def tdiv (a b : Int) : Int := a.sign * b.sign * ((a.natAbs / b.natAbs : Nat) : Int)

/-- `tmod(a, b)`, for `b ≠ 0`: the remainder that pairs with `tdiv` (R152). -/
def tmod (a b : Int) : Int := a - tdiv a b * b

/-- MOD under a convention (R152): the truncated remainder, or the floored modulus, whose sign is
that of `b`. -/
def modWith (c : ModConvention) (a b : Int) : Int :=
  match c with
  | .truncated => tmod a b
  | .floored => Int.fmod a b

/-- ADD (R153): exact in ℤ. -/
def execAdd (s : State) : Outcome :=
  popTwo s fun a b s => push (a + b) s advance

/-- SUB (R154): the deeper element minus the top. -/
def execSub (s : State) : Outcome :=
  popTwo s fun a b s => push (a - b) s advance

/-- MUL (R155). -/
def execMul (s : State) : Outcome :=
  popTwo s fun a b s => push (a * b) s advance

/-- DIV (R156): both pops precede the zero test (spec/60_exceptions.md R205). -/
def execDiv (s : State) : Outcome :=
  popTwo s fun a b s => if b = 0 then raise .divideByZero s else push (tdiv a b) s advance

/-- MOD (R157). -/
def execMod (s : State) : Outcome :=
  popTwo s fun a b s =>
    if b = 0 then raise .divideByZero s else push (modWith Config.modConvention a b) s advance

end Sys2Proof.Machine
end

