-- ==== Sys2Proof/Machine/Flags.lean ====
section
/-! DEFINITION. Flags (spec/10_state.md R15). The hardware has no condition codes; its one flag is
`T`, set only by EXIT. JMPZERO and JMPNEG test a value they pop, not a flag (spec/45_control.md
R174, R175). -/

namespace Sys2Proof.Machine

/-- JMPZERO's test of the popped value (R174). -/
def testZero (v : Int) : Bool := decide (v = 0)

/-- JMPNEG's test of the popped value: "strictly negative", so 0 falls through (R175). -/
def testNegative (v : Int) : Bool := decide (v < 0)

/-- `T <- true`; `pc` is not to be read from then on, so it is a free value (R177, R121; 93 U6, 92
D12; log entry 10, DESIGN CHOICE). -/
def terminate (s : State) : Outcome :=
  .next (((s.setTerminated true).setPc (Config.freePc s.draws)).draw)

end Sys2Proof.Machine
end

