-- ==== Sys2Proof/Machine/Control.lean ====
section
/-! DEFINITION. LABEL, CALL, JMP, JMPZERO, JMPNEG, RET, EXIT (spec/45_control.md R170 to R177). -/

namespace Sys2Proof.Machine

/-- LABEL n (R170): a no-op marker; it takes a step. -/
def execLabel (_n : Nat) (s : State) : Outcome := advance s

/-- CALL n (R171): saves `pc + 1`, goes to the LABEL's own index. -/
def execCall (n : Nat) (s : State) : Outcome :=
  rpush (s.pc + 1) s fun s => branchToLabel n s

/-- JMP n (R172). -/
def execJmp (n : Nat) (s : State) : Outcome := branchToLabel n s

/-- JMPZERO n (R174): the value is popped in both cases; the label is resolved only when
taken (R173; log entry 14, DESIGN CHOICE). -/
def execJmpzero (n : Nat) (s : State) : Outcome :=
  pop s fun v s => if testZero v then branchToLabel n s else advance s

/-- JMPNEG n (R175, R173). -/
def execJmpneg (n : Nat) (s : State) : Outcome :=
  pop s fun v s => if testNegative v then branchToLabel n s else advance s

/-- RET (R176): takes no label. -/
def execRet (s : State) : Outcome := rpop s fun t s => jumpTo t s

/-- EXIT (R177). -/
def execExit (s : State) : Outcome := terminate s

end Sys2Proof.Machine
end

