-- ==== Sys2Proof/Machine/HeapAccess.lean ====
section
/-! DEFINITION. STORE and LOAD (spec/46_heap.md R190, R191). -/

namespace Sys2Proof.Machine

/-- STORE (R190): value on top, address below it. -/
def execStore (s : State) : Outcome :=
  pop s fun v s => pop s fun a s => memWrite a v s advance

/-- LOAD (R191). -/
def execLoad (s : State) : Outcome :=
  pop s fun a s => push (memRead a s) s advance

end Sys2Proof.Machine
end

