-- ==== Sys2Proof/Machine/InputOutput.lean ====
section
/-! DEFINITION. READCH, READI, WRITECH, WRITEI (spec/42_io.md R132 to R135). -/

namespace Sys2Proof.Machine

/-- READCH (R132): the pop comes before any channel call. -/
def execReadch (s : State) : Outcome :=
  pop s fun a s => chanReadChar s fun c s => memWrite a c s advance

/-- READI (R133). -/
def execReadi (s : State) : Outcome :=
  pop s fun a s => chanReadInt s fun v s => memWrite a v s advance

/-- WRITECH (R134). -/
def execWritech (s : State) : Outcome :=
  pop s fun v s => chanWriteChar v s advance

/-- WRITEI (R135). -/
def execWritei (s : State) : Outcome :=
  pop s fun v s => chanWriteInt v s advance

end Sys2Proof.Machine
end

