-- ==== Sys2Proof/Machine/StackOps.lean ====
section
/-! DEFINITION. PUSH, DUP, SWAP, POP, COPY, DROP (spec/43_stack.md R141 to R146). -/

namespace Sys2Proof.Machine

/-- PUSH v (R141). -/
def execPush (v : Int) (s : State) : Outcome := push v s advance

/-- DUP (R142). -/
def execDup (s : State) : Outcome :=
  pop s fun a s => push a s fun s => push a s advance

/-- SWAP (R143): `[..., b, a]` becomes `[..., a, b]`. -/
def execSwap (s : State) : Outcome :=
  pop s fun a s => pop s fun b s => push a s fun s => push b s advance

/-- POP (R144). -/
def execPop (s : State) : Outcome := pop s fun _ s => advance s

/-- COPY n (R145): the check comes before any change to `S`. -/
def execCopy (n : Int) (s : State) : Outcome :=
  match elementAtDepth s.stack n with
  | none => raise .copyOutOfRange s
  | some v => push v s advance

/-- DROP n (R146): the top element stays. -/
def execDrop (n : Int) (s : State) : Outcome :=
  match slideUnderTop s.stack n with
  | none => raise .dropOutOfRange s
  | some S => advance (s.setStack S)

end Sys2Proof.Machine
end

