-- ==== Sys2Proof/Machine/Dispatch.lean ====
section
/-! DEFINITION. The dispatcher (spec/41_sequencer.md R113): one arm per operation, each one call of its meaning. -/

namespace Sys2Proof.Machine

def exec (i : Instr) (s : State) : Host.Outcome State Fault Refusal :=
  match i with
  | .readch => Sys2Proof.Machine.execReadch s
  | .readi => Sys2Proof.Machine.execReadi s
  | .writech => Sys2Proof.Machine.execWritech s
  | .writei => Sys2Proof.Machine.execWritei s
  | .push v => Sys2Proof.Machine.execPush v s
  | .dup => Sys2Proof.Machine.execDup s
  | .swap => Sys2Proof.Machine.execSwap s
  | .pop => Sys2Proof.Machine.execPop s
  | .copy n => Sys2Proof.Machine.execCopy n s
  | .drop n => Sys2Proof.Machine.execDrop n s
  | .add => Sys2Proof.Machine.execAdd s
  | .sub => Sys2Proof.Machine.execSub s
  | .mul => Sys2Proof.Machine.execMul s
  | .div => Sys2Proof.Machine.execDiv s
  | .mod => Sys2Proof.Machine.execMod s
  | .label n => Sys2Proof.Machine.execLabel n s
  | .call n => Sys2Proof.Machine.execCall n s
  | .jmp n => Sys2Proof.Machine.execJmp n s
  | .jmpzero n => Sys2Proof.Machine.execJmpzero n s
  | .jmpneg n => Sys2Proof.Machine.execJmpneg n s
  | .ret => Sys2Proof.Machine.execRet s
  | .exit => Sys2Proof.Machine.execExit s
  | .store => Sys2Proof.Machine.execStore s
  | .load => Sys2Proof.Machine.execLoad s

end Sys2Proof.Machine
end

