-- ==== Sys2Proof/Machine/Step.lean ====
section
/-! DEFINITION. One step of the engine (spec/41_sequencer.md R110) and the host's placing of one
instruction where the step fetches it. -/

namespace Sys2Proof.Machine

/-- `step()` (R110): the precondition, the fetch (R111), the dispatch (R113). -/
def step (s : State) : Host.Outcome State Fault Refusal :=
  match stepRefusal s with
  | some r => .refused r
  | none =>
    match fetch s with
    | none => raise .pcOutOfRange s
    | some i => exec i s

/-- `s` with the instruction of an opcode-table word at index `pc` of its Program and a step
enabled (`T = false`, `F = none`), so that the very next step runs that instruction. It stands for the
host's binding of a Program (spec/70_reset_and_hazards.md R232; log entry 3, DESIGN CHOICE). -/
def State.withFetchWord (s : State) (nbits w : Nat) : State :=
  match decodeTableWord nbits w with
  | none => s
  | some i => ((s.setProgram (placeAt s.program s.pc i)).setTerminated false).setFault none

end Sys2Proof.Machine
end

