-- ==== Sys2Proof/Machine/LabelIndex.lean ====
section
/-! DEFINITION. The label index built once from a Program (spec/41_sequencer.md R117): no part of the
state (spec/10_state.md R19), "a pure performance refinement" of `findLabel`. -/

namespace Sys2Proof.Machine

/-- (label number, index) of every LABEL of the instructions, the first of which stands at `k`. -/
def labelIndexFrom (k : Nat) : Program → List (Nat × Nat)
  | [] => []
  | i :: rest =>
    if i.op = .label then (i.operand.toNat, k) :: labelIndexFrom (k + 1) rest
    else labelIndexFrom (k + 1) rest

/-- The index of a whole Program. -/
def labelIndex (P : Program) : List (Nat × Nat) := labelIndexFrom 0 P

/-- The first entry of a number, which has the lowest index it is defined at (R117). -/
def lookupLabel : List (Nat × Nat) → Nat → Option Nat
  | [], _ => none
  | (m, k) :: rest, n => if m = n then some k else lookupLabel rest n

end Sys2Proof.Machine
end

