-- ==== Sys2Proof/Machine/Stream.lean ====
section
/-! DEFINITION. The decode tree and the streaming decoder of spec/40_codec.md R87, which receives one
symbol at a time. It reads the tree's table, not the code table of R54. -/

namespace Sys2Proof.Machine

/-- A node of the decode tree, named by the symbols read so far (R87). -/
inductive TreeNode where
  | root | a | ab | ac | b | ba | baa | bab | bb | bc | bca | bcb | c | ca | cb | cc
  deriving DecidableEq, Repr

/-- What the next symbol leads to. -/
inductive TreeEdge where
  | goTo (n : TreeNode)
  | matched (op : Operation)
  | reject
  deriving DecidableEq, Repr

/-- The table of R87, one line a row. -/
def treeEdge : TreeNode → Symbol → TreeEdge
  | .root, .A => .goTo .a | .root, .B => .goTo .b | .root, .C => .goTo .c
  | .a, .A => .matched .push | .a, .B => .goTo .ab | .a, .C => .goTo .ac
  | .ab, .A => .matched .copy | .ab, .B => .reject | .ab, .C => .matched .drop
  | .ac, .A => .matched .dup | .ac, .B => .matched .swap | .ac, .C => .matched .pop
  | .b, .A => .goTo .ba | .b, .B => .goTo .bb | .b, .C => .goTo .bc
  | .ba, .A => .goTo .baa | .ba, .B => .goTo .bab | .ba, .C => .reject
  | .baa, .A => .matched .add | .baa, .B => .matched .sub | .baa, .C => .matched .mul
  | .bab, .A => .matched .div | .bab, .B => .matched .mod | .bab, .C => .reject
  | .bb, .A => .matched .store | .bb, .B => .matched .load | .bb, .C => .reject
  | .bc, .A => .goTo .bca | .bc, .B => .goTo .bcb | .bc, .C => .reject
  | .bca, .A => .matched .writech | .bca, .B => .matched .writei | .bca, .C => .reject
  | .bcb, .A => .matched .readch | .bcb, .B => .matched .readi | .bcb, .C => .reject
  | .c, .A => .goTo .ca | .c, .B => .goTo .cb | .c, .C => .goTo .cc
  | .ca, .A => .matched .label | .ca, .B => .matched .call | .ca, .C => .matched .jmp
  | .cb, .A => .matched .jmpzero | .cb, .B => .matched .jmpneg | .cb, .C => .matched .ret
  | .cc, .A => .reject | .cc, .B => .reject | .cc, .C => .matched .exit

/-- What the streaming decoder holds between symbols: the node of the tree, or the matched operation
with whether it is at the sign position, the sign and the accumulated magnitude (R87). -/
inductive StreamNode where
  | inCode (n : TreeNode)
  | atSign (op : Operation)
  | inDigits (op : Operation) (negative : Bool) (magnitude : Nat)
  deriving DecidableEq, Repr

/-- What one symbol gives: more to read, an instruction, or an error. -/
inductive StreamReply where
  | more (n : StreamNode)
  | emit (i : Instr)
  | error (e : FormatError)
  deriving DecidableEq, Repr

/-- The reply to an operand that is complete (R209's range check included). -/
def emitOperand (op : Operation) (n : Int) : StreamReply :=
  match inRange Config.limits n (op.withOperand n) with
  | .ok i => .emit i
  | .error e => .error e

/-- The streaming decoder's reaction to one symbol: "it emits the instruction on the terminator `C`
(formats S and U) or on the last prefix symbol (format N)" (R87). -/
def streamSymbol : StreamNode → Symbol → StreamReply
  | .inCode n, c =>
    match treeEdge n c with
    | .goTo m => .more (.inCode m)
    | .reject => .error .unrecognizedPrefix
    | .matched op =>
      match op.kind with
      | .none => .emit (op.withOperand 0)
      | .sint => .more (.atSign op)
      | .uint => .more (.inDigits op false 0)
  | .atSign op, .A => .more (.inDigits op false 0)
  | .atSign op, .B => .more (.inDigits op true 0)
  | .atSign _, .C => .error .invalidSign
  | .inDigits op neg m, .A => .more (.inDigits op neg (m * 2 + Symbol.A.bit))
  | .inDigits op neg m, .B => .more (.inDigits op neg (m * 2 + Symbol.B.bit))
  | .inDigits op neg m, .C => emitOperand op (if neg then -(m : Int) else (m : Int))

/-- The error of a buffer that ends while the decoder is at this point (R202 FE1, FE2). -/
def streamEnd : StreamNode → FormatError
  | .inCode _ => .unrecognizedPrefix
  | .atSign _ => .missingTerminator
  | .inDigits _ _ _ => .missingTerminator

/-- The streaming decoder over a buffer, `k` symbols received so far: symbols consumed and instruction. -/
def streamDecode : StreamNode → Nat → List Symbol → Except FormatError (Nat × Instr)
  | n, _, [] => .error (streamEnd n)
  | n, k, c :: rest =>
    match streamSymbol n c with
    | .more m => streamDecode m (k + 1) rest
    | .emit i => .ok (k + 1, i)
    | .error e => .error e

end Sys2Proof.Machine
end

