-- ==== Sys2Proof/Machine/TextForm.lean ====
section
/-! DEFINITION. The mnemonic text form (spec/30_encoding.md R65 to R69, spec/40_codec.md R95 to R98) and
the rendering of output as text (spec/42_io.md R137). Text is a list of characters. -/

namespace Sys2Proof.Machine

/-! ### Mnemonics (R66) -/

/-- The mnemonic of an operation: its name in lower case (R66). -/
def mnemonic : Operation → Text
  | .readch => "readch".toList
  | .readi => "readi".toList
  | .writech => "writech".toList
  | .writei => "writei".toList
  | .push => "push".toList
  | .dup => "dup".toList
  | .swap => "swap".toList
  | .pop => "pop".toList
  | .copy => "copy".toList
  | .drop => "drop".toList
  | .add => "add".toList
  | .sub => "sub".toList
  | .mul => "mul".toList
  | .div => "div".toList
  | .mod => "mod".toList
  | .label => "label".toList
  | .call => "call".toList
  | .jmp => "jmp".toList
  | .jmpzero => "jmpzero".toList
  | .jmpneg => "jmpneg".toList
  | .ret => "ret".toList
  | .exit => "exit".toList
  | .store => "store".toList
  | .load => "load".toList

/-- `A` to `Z` mapped to `a` to `z`, every other character as it is (R96, 92 D17). -/
def foldCase (c : Char) : Char :=
  if 'A' ≤ c ∧ c ≤ 'Z' then Char.ofNat (c.toNat + 32) else c

/-- The operation whose mnemonic is `m`. -/
def operationOfMnemonic (m : Text) : Option Operation :=
  Operation.all.find? (fun op => mnemonic op == m)

/-! ### Decimal operands (R67) -/

/-- The character of a decimal digit. -/
def digitChar (d : Nat) : Char := Char.ofNat (48 + d)

/-- The decimal digits of `v`, most significant first, none for 0; `fuel` is at least their number. -/
def decimalDigits : Nat → Nat → Text
  | 0, _ => []
  | fuel + 1, v => if v = 0 then [] else decimalDigits fuel (v / 10) ++ [digitChar (v % 10)]

/-- A natural number in base ten, no leading zeros, `0` as the single digit `0`. -/
def encodeDecimalNat (v : Nat) : Text := if v = 0 then ['0'] else decimalDigits v v

/-- The decimal form of R67: a leading `-` for a negative value, no `+`. -/
def encodeDecimal (v : Int) : Text :=
  if 0 ≤ v then encodeDecimalNat v.toNat else '-' :: encodeDecimalNat (-v).toNat

/-- The value of a character `0` to `9`. -/
def digitValue (c : Char) : Option Nat :=
  if '0' ≤ c ∧ c ≤ '9' then some (c.toNat - 48) else none

/-- Accumulate decimal digits onto `acc`; none at the first character that is no digit. -/
def accumulateDecimal : Text → Nat → Option Nat
  | [], acc => some acc
  | c :: rest, acc =>
    match digitValue c with
    | none => none
    | some d => accumulateDecimal rest (acc * 10 + d)

/-- The value of a string matched by `[0-9]+`. -/
def decodeDecimalNat (t : Text) : Option Nat :=
  if t = [] then none else accumulateDecimal t 0

/-- The value of a string matched by `-?[0-9]+` (R67, 92 D17); none for every other string. -/
def decodeDecimal : Text → Option Int
  | [] => none
  | c :: rest =>
    if c = '-' then
      match decodeDecimalNat rest with
      | none => none
      | some m => some (-(m : Int))
    else
      match decodeDecimalNat (c :: rest) with
      | none => none
      | some m => some (m : Int)

/-! ### One instruction (R95, R96) -/

/-- Cut at every separator: `k` of them give `k + 1` pieces, and a piece may be empty. -/
def splitAt (sep : Char) : Text → List Text
  | [] => [[]]
  | c :: rest =>
    if c = sep then [] :: splitAt sep rest
    else
      match splitAt sep rest with
      | [] => [[c]]
      | piece :: pieces => (c :: piece) :: pieces

/-- `encodeText(i)` (R95). -/
def encodeText (i : Instr) : Text :=
  match i.op.kind with
  | .none => mnemonic i.op
  | .sint => mnemonic i.op ++ ' ' :: encodeDecimal i.operand
  | .uint => mnemonic i.op ++ ' ' :: encodeDecimal i.operand

/-- `encodeText` of a raw pair: an ill-formed one has no text (R100). -/
def encodeTextRaw (r : RawInstr) : Except FormatError Text :=
  match r.check with
  | .error e => .error e
  | .ok i => .ok (encodeText i)

/-- The operand token of operation `op`, whose kind is not none (R96's last five lines). -/
def decodeTextOperand (op : Operation) (tok : Text) : Except FormatError Instr :=
  match decodeDecimal tok with
  | none => .error .nonNumericOperand
  | some n =>
    if op.kind = .uint ∧ n < 0 then .error .negativeLabel
    else inRange Config.limits n (op.withOperand n)

/-- `decodeText` of the tokens (R96), in the order of its checks. -/
def decodeTokens : List Text → Except FormatError Instr
  | [] => .error .unknownMnemonic
  | [m] =>
    match operationOfMnemonic (m.map foldCase) with
    | none => .error .unknownMnemonic
    | some op => if op.kind = .none then .ok (op.withOperand 0) else .error .missingOperand
  | [m, tok] =>
    match operationOfMnemonic (m.map foldCase) with
    | none => .error .unknownMnemonic
    | some op => if op.kind = .none then .error .unexpectedOperand else decodeTextOperand op tok
  | _ :: _ :: _ :: _ => .error .tooManyTokens

/-- `decodeText(line)` (R96; log entry 17, DESIGN CHOICE). -/
def decodeText (line : Text) : Except FormatError Instr := decodeTokens (splitAt ' ' line)

/-! ### A whole program (R97, R98) -/

/-- `toText(P)` (R97): every line followed by the separator. -/
def toText (P : Program) : Text := P.flatMap (fun i => encodeText i ++ [Config.lineSep])

/-- `toText` of raw pairs: the first ill-formed one ends it (R100, R202 FE10). -/
def toTextRaw : List RawInstr → Except FormatError Text
  | [] => .ok []
  | r :: rest =>
    match encodeTextRaw r with
    | .error e => .error e
    | .ok line =>
      match toTextRaw rest with
      | .error e => .error e
      | .ok text => .ok (line ++ Config.lineSep :: text)

/-- "exactly one trailing empty line" dropped, if present (R98). -/
def dropTrailingEmpty (lines : List Text) : List Text :=
  if lines.getLast? = some [] then lines.dropLast else lines

/-- Every line decoded; the first FormatError ends it (R98). -/
def decodeLines : List Text → Except FormatError Program
  | [] => .ok []
  | l :: rest =>
    match decodeText l with
    | .error e => .error e
    | .ok i =>
      match decodeLines rest with
      | .error e => .error e
      | .ok P => .ok (i :: P)

/-- `fromText(s)` (R98). -/
def fromText (s : Text) : Except FormatError Program :=
  decodeLines (dropTrailingEmpty (splitAt Config.lineSep s))

/-! ### Rendering of output (R137) -/

/-- The character whose code point is `v`, if `v` is one (log entry 13, DESIGN CHOICE). -/
def codePointChar (v : Int) : Option Char :=
  if 0 ≤ v ∧ v.toNat.isValidChar then some (Char.ofNat v.toNat) else none

/-- The text of one event; a read emits nothing; a `WrChar` of no code point has no text (R137). -/
def renderEvent : Event → Option Text
  | .rdChar _ => some []
  | .rdInt _ => some []
  | .wrChar v =>
    match codePointChar v with
    | none => none
    | some c => some [c]
  | .wrInt v => some (encodeDecimal v)

/-- The output of a trace as text, nothing between successive items; none where some item has no
text (R137). -/
def render : List Event → Option Text
  | [] => some []
  | e :: rest =>
    match renderEvent e, render rest with
    | some t, some ts => some (t ++ ts)
    | _, _ => none

end Sys2Proof.Machine
end

