-- ==== Sys2Proof/Machine/Engine.lean ====
section
/-! DEFINITION. What the host does with an engine (spec/70_reset_and_hazards.md R232): construct it
bound to a Program and a channel, and run it (spec/41_sequencer.md R120). -/

namespace Sys2Proof.Machine

/-- Construct an engine under limits `L`: a fresh state bound to `P`, with the answers the host has
scripted; a Program longer than `PROG_MAX` is refused (R232, R209). -/
def constructWithin (L : Limits) (P : Program) (answers : List ChanAnswer) : Option State :=
  if admitsProgram L P.length then some ((State.reset.setProgram P).setAnswers answers) else none

/-- Construct an engine. -/
def construct (P : Program) (answers : List ChanAnswer) : Option State :=
  constructWithin Config.limits P answers

/-- Construct an engine from the byte form of a Program (R232 (1): "obtained by `assemble`"). -/
def constructFromBytes (bytes : List Byte) (answers : List ChanAnswer) : Except FormatError (Option State) :=
  match assemble bytes with
  | .error e => .error e
  | .ok P => .ok (construct P answers)

/-- Construct an engine from the text form of a Program (R232 (1): "by `fromText`"). -/
def constructFromText (text : Text) (answers : List ChanAnswer) : Except FormatError (Option State) :=
  match fromText text with
  | .error e => .error e
  | .ok P => .ok (construct P answers)

/-- How far a run has come (R120: it returns with `T = true`, ends with a RuntimeFault, or never
returns). -/
inductive RunEnd where
  /-- `T = true`: the normal end. -/
  | terminated (s : State)
  /-- A RuntimeFault ended the run. -/
  | faulted (k : RuntimeFault) (s : State)
  /-- A channel read never answers (R136). -/
  | stuck (r : Fault)
  /-- The model's fuel is used up; the run goes on (R123). -/
  | running (s : State)
  /-- A step was refused. -/
  | refused (r : Refusal)
  deriving DecidableEq, Repr

/-- `run()` under fuel (R120, R123). -/
def run (fuel : Nat) (s : State) : RunEnd :=
  if s.terminated then .terminated s
  else
    match s.fault with
    | some k => .faulted k s
    | none =>
      match fuel with
      | 0 => .running s
      | f + 1 =>
        match step s with
        | .next t => run f t
        | .fault r => .stuck r
        | .refused r => .refused r

end Sys2Proof.Machine
end

