-- ==== Sys2Proof/Safety.lean ====
section
/-! DEFINITION. The terms claims are stated in: when a step is enabled, what a raise is, and the
invariant of a run. -/

namespace Sys2Proof.Machine

/-- The precondition of a step (spec/41_sequencer.md R110): `T = false` and `F = none`. -/
abbrev Enabled (s : State) : Prop := s.terminated = false ∧ s.fault = none

/-- A final state (R121). -/
abbrev Final (s : State) : Prop := s.terminated = true

/-- Outcome `o` is RuntimeFault `k` raised in state `s` (spec/60_exceptions.md R210): `F` is `k`, `T`
stays, the trace keeps what it had, the Program is the same. Nothing is said of S, H, R and pc, which
R210 leaves undefined. -/
def Raises (k : RuntimeFault) (s : State) (o : Outcome) : Prop :=
  ∃ t, o = .next t ∧ t.fault = some k ∧ t.terminated = s.terminated ∧ t.trace = s.trace ∧
    t.program = s.program

/-- Outcome `o` is the next state `t`, with no RuntimeFault raised. -/
def Completes (o : Outcome) (t : State) : Prop := o = .next t ∧ t.fault = none

/-- What holds in every state of a run: the heap is canonical; a final state is not faulted (R210, R120);
while no fault has happened every saved return index is in `1 .. len(P)` (R14); while a step is
enabled `pc ≤ len(P)` (R13, spec/90_conflicts.md C4). -/
def State.Inv (s : State) : Prop :=
  Memory.wf s.heap ∧
  (s.terminated = true → s.fault = none) ∧
  (s.fault = none → ∀ r ∈ s.calls, 1 ≤ r ∧ r ≤ s.program.length) ∧
  (Enabled s → s.pc ≤ s.program.length)

/-- The RuntimeFault kinds an instruction can raise: the table of R204. -/
def canRaise : Instr → List RuntimeFault
  | .push _ => []
  | .label _ => []
  | .exit => []
  | .dup => [.stackUnderflow]
  | .swap => [.stackUnderflow]
  | .pop => [.stackUnderflow]
  | .add => [.stackUnderflow]
  | .sub => [.stackUnderflow]
  | .mul => [.stackUnderflow]
  | .writech => [.stackUnderflow]
  | .writei => [.stackUnderflow]
  | .store => [.stackUnderflow]
  | .load => [.stackUnderflow]
  | .div => [.stackUnderflow, .divideByZero]
  | .mod => [.stackUnderflow, .divideByZero]
  | .copy _ => [.copyOutOfRange]
  | .drop _ => [.dropOutOfRange]
  | .readch => [.stackUnderflow, .ioFailure]
  | .readi => [.stackUnderflow, .ioFailure]
  | .jmpzero _ => [.stackUnderflow, .unresolvedLabel]
  | .jmpneg _ => [.stackUnderflow, .unresolvedLabel]
  | .call _ => [.unresolvedLabel]
  | .jmp _ => [.unresolvedLabel]
  | .ret => [.callStackEmpty]

/-- Every label operand of CALL, JMP, JMPZERO and JMPNEG is defined by some LABEL ("label-closed", R173). -/
def LabelClosed (P : Program) : Prop :=
  ∀ n, (Instr.call n ∈ P ∨ .jmp n ∈ P ∨ .jmpzero n ∈ P ∨ .jmpneg n ∈ P) → Instr.label n ∈ P

/-- The nine shortest symbol strings that match no code and are not the start of one: the table of R61. -/
def illegalCodes : List (List Symbol) :=
  [[.A, .B, .B], [.B, .A, .C], [.B, .A, .B, .C], [.B, .B, .C], [.B, .C, .C], [.B, .C, .A, .C],
   [.B, .C, .B, .C], [.C, .C, .A], [.C, .C, .B]]

/-- An unsigned field in the form R81 emits: the digits have no leading `A` (R60). -/
def canonicalUInt : List Symbol → Bool
  | .A :: _ => false
  | _ => true

/-- A signed field in the form R83 emits: sign `A` for 0, and a canonical unsigned field (R60). -/
def canonicalSInt : List Symbol → Bool
  | .A :: field => canonicalUInt field
  | .B :: field => canonicalUInt field && field.head? != some .C
  | _ => false

/-- The operand field of an operation is in canonical form; there is none to judge for format N. -/
def canonicalField (op : Operation) (field : List Symbol) : Bool :=
  match op.kind with
  | .none => true
  | .sint => canonicalSInt field
  | .uint => canonicalUInt field

/-- Every operand in the buffer is in canonical form (R94): wherever an instruction starts, which is after
any symbols that assemble to whole instructions, its operand field is canonical. -/
def OperandsCanonical (buf : List Symbol) : Prop :=
  ∀ x y P l i, buf = x ++ y → assembleSymbols x = .ok P → decodeBinary buf x.length = .ok (l, i) →
    canonicalField i.op ((y.take l).drop i.op.code.length) = true

/-- The same outcome with `f` applied to its next state. -/
def mapNext (f : State → State) : Outcome → Outcome
  | .next t => .next (f t)
  | .fault r => .fault r
  | .refused r => .refused r

/-- `s` with another trace: what a claim about the trace compares. -/
def State.setTrace (s : State) (es : List Event) : State := { s with trace := es }

end Sys2Proof.Machine
end

