-- ==== Sys2Proof/Certificates/Slice0/Obligations.lean ====
section
/-! DEFINITION. The statements for the provers, from the numbered rules of spec/. A statement of an
instruction's rule says its encoding and text, its result with all that it leaves unchanged (an
equation of states), and what it raises. A raise is `Raises` (Safety.lean), spec/60_exceptions.md
R210's representation of a RuntimeFault. -/

open Sys2Proof Sys2Proof.Machine

/-! ### Reset (spec/70_reset_and_hazards.md R230) -/

/-- R230: what reset leaves, and that a fresh engine is the reset state bound to its Program and to the
host's channel (here: the script of its answers, log entry 4, DESIGN CHOICE). -/
def Obligations.ResetAndFreshEngineState : Prop :=
  (State.reset.stack = [] ∧ (∀ a, State.reset.heap.read a = 0) ∧ State.reset.calls = [] ∧
    State.reset.pc = 0 ∧ State.reset.terminated = false ∧ State.reset.fault = none ∧
    State.reset.trace = []) ∧
  (∀ P answers, construct P answers = some ((State.reset.setProgram P).setAnswers answers))

/-! ### I/O family (spec/42_io.md R132 to R135) -/

/-- R132. With a value from the channel the cell at the popped address is written, the rest of the heap
keeps its values, one event is recorded; an empty stack is reported before the channel is called; a
failed read is `IoFailure`, a read without an answer is stuck (R136, 92 D7). -/
def Obligations.ReadchStoresChannelCharacter : Prop :=
  (∀ s xs a c, s.stack = xs ++ [a] → (takeAnswer s).1 = .value c →
    ∃ t, exec .readch s = .next t ∧ t.heap.read a = c ∧ (∀ b, b ≠ a → t.heap.read b = s.heap.read b) ∧
      t = (((((takeAnswer s).2.setStack xs).setHeap t.heap).record (.rdChar c)).setPc (s.pc + 1))) ∧
  (∀ s, s.stack = [] → Raises .stackUnderflow s (exec .readch s) ∧
    ∀ t, exec .readch s = .next t → t.answers = s.answers) ∧
  (∀ s, s.stack ≠ [] → (takeAnswer s).1 = .fail → Raises .ioFailure s (exec .readch s)) ∧
  (∀ s, s.stack ≠ [] → (takeAnswer s).1 = .silent → exec .readch s = .fault .channelNeverAnswers)

/-- R133: as READCH, with an integer from the channel. -/
def Obligations.ReadiStoresChannelInteger : Prop :=
  (∀ s xs a v, s.stack = xs ++ [a] → (takeAnswer s).1 = .value v →
    ∃ t, exec .readi s = .next t ∧ t.heap.read a = v ∧ (∀ b, b ≠ a → t.heap.read b = s.heap.read b) ∧
      t = (((((takeAnswer s).2.setStack xs).setHeap t.heap).record (.rdInt v)).setPc (s.pc + 1))) ∧
  (∀ s, s.stack = [] → Raises .stackUnderflow s (exec .readi s) ∧
    ∀ t, exec .readi s = .next t → t.answers = s.answers) ∧
  (∀ s, s.stack ≠ [] → (takeAnswer s).1 = .fail → Raises .ioFailure s (exec .readi s)) ∧
  (∀ s, s.stack ≠ [] → (takeAnswer s).1 = .silent → exec .readi s = .fault .channelNeverAnswers)

/-- R134. -/
def Obligations.WritechEmitsPoppedValue : Prop :=
  (encodeBinary .writech = [.B, .C, .A, .A] ∧ encodeText .writech = "writech".toList) ∧
  (∀ s xs v, s.stack = xs ++ [v] →
    exec .writech s = .next (((s.setStack xs).record (.wrChar v)).setPc (s.pc + 1))) ∧
  (∀ s, s.stack = [] → Raises .stackUnderflow s (exec .writech s))

/-- R135. -/
def Obligations.WriteiEmitsPoppedValue : Prop :=
  (encodeBinary .writei = [.B, .C, .A, .B] ∧ encodeText .writei = "writei".toList) ∧
  (∀ s xs v, s.stack = xs ++ [v] →
    exec .writei s = .next (((s.setStack xs).record (.wrInt v)).setPc (s.pc + 1))) ∧
  (∀ s, s.stack = [] → Raises .stackUnderflow s (exec .writei s))

/-! ### Stack family (spec/43_stack.md R141 to R146) -/

/-- R141: PUSH raises nothing. -/
def Obligations.PushPushesLiteral : Prop :=
  (∀ v, encodeBinary (.push v) = [.A, .A] ++ encodeSInt v ∧
    encodeText (.push v) = "push ".toList ++ encodeDecimal v) ∧
  (∀ v s, exec (.push v) s = .next ((s.setStack (s.stack ++ [v])).setPc (s.pc + 1)))

/-- R142, its comparison with COPY 0 included. -/
def Obligations.DupDuplicatesTop : Prop :=
  (encodeBinary .dup = [.A, .C, .A] ∧ encodeText .dup = "dup".toList) ∧
  (∀ s xs a, s.stack = xs ++ [a] → exec .dup s = .next ((s.setStack (xs ++ [a, a])).setPc (s.pc + 1))) ∧
  (∀ s, s.stack ≠ [] → exec (.copy 0) s = exec .dup s) ∧
  (∀ s, s.stack = [] → Raises .stackUnderflow s (exec .dup s))

/-- R143: `[..., b, a]` becomes `[..., a, b]`. -/
def Obligations.SwapExchangesTopTwo : Prop :=
  (encodeBinary .swap = [.A, .C, .B] ∧ encodeText .swap = "swap".toList) ∧
  (∀ s xs b a, s.stack = xs ++ [b, a] →
    exec .swap s = .next ((s.setStack (xs ++ [a, b])).setPc (s.pc + 1))) ∧
  (∀ s, s.stack.length < 2 → Raises .stackUnderflow s (exec .swap s))

/-- R144. -/
def Obligations.PopDiscardsTop : Prop :=
  (encodeBinary .pop = [.A, .C, .C] ∧ encodeText .pop = "pop".toList) ∧
  (∀ s xs a, s.stack = xs ++ [a] → exec .pop s = .next ((s.setStack xs).setPc (s.pc + 1))) ∧
  (∀ s, s.stack = [] → Raises .stackUnderflow s (exec .pop s))

/-- COPY: the element with `n` elements above it is pushed; out of range raises. The fault for a
negative operand is the spec's own choice (92 D5; log entry 12, DESIGN CHOICE). -/
def Obligations.CopyPushesElementAtDepth : Prop :=
  (∀ s xs v ys, s.stack = xs ++ v :: ys →
    exec (.copy ys.length) s = .next ((s.setStack (s.stack ++ [v])).setPc (s.pc + 1))) ∧
  (∀ s n, (s.stack.length : Int) ≤ n → Raises .copyOutOfRange s (exec (.copy n) s)) ∧
  (∀ s n, n < 0 → Raises .copyOutOfRange s (exec (.copy n) s))

/-- DROP: `n` elements go from under the top, the top stays; out of range raises. The fault for a
negative operand is the spec's own choice (92 D5; log entry 12, DESIGN CHOICE). -/
def Obligations.DropSlidesUnderTop : Prop :=
  (∀ s xs ys top, s.stack = xs ++ ys ++ [top] →
    exec (.drop ys.length) s = .next ((s.setStack (xs ++ [top])).setPc (s.pc + 1))) ∧
  (∀ s n, (s.stack.length : Int) < n + 1 → Raises .dropOutOfRange s (exec (.drop n) s)) ∧
  (∀ s n, n < 0 → Raises .dropOutOfRange s (exec (.drop n) s))

/-! ### Arithmetic family (spec/44_arith.md R151 to R157) -/

/-- R153: exact in ℤ. -/
def Obligations.AddLeavesExactSum : Prop :=
  (encodeBinary .add = [.B, .A, .A, .A] ∧ encodeText .add = "add".toList) ∧
  (∀ s xs a b, s.stack = xs ++ [a, b] → exec .add s = .next ((s.setStack (xs ++ [a + b])).setPc (s.pc + 1))) ∧
  (∀ s, s.stack.length < 2 → Raises .stackUnderflow s (exec .add s))

/-- R154: the deeper element minus the top element. -/
def Obligations.SubLeavesExactDifference : Prop :=
  (encodeBinary .sub = [.B, .A, .A, .B] ∧ encodeText .sub = "sub".toList) ∧
  (∀ s xs a b, s.stack = xs ++ [a, b] → exec .sub s = .next ((s.setStack (xs ++ [a - b])).setPc (s.pc + 1))) ∧
  (∀ s, s.stack.length < 2 → Raises .stackUnderflow s (exec .sub s))

/-- R155. -/
def Obligations.MulLeavesExactProduct : Prop :=
  (encodeBinary .mul = [.B, .A, .A, .C] ∧ encodeText .mul = "mul".toList) ∧
  (∀ s xs a b, s.stack = xs ++ [a, b] → exec .mul s = .next ((s.setStack (xs ++ [a * b])).setPc (s.pc + 1))) ∧
  (∀ s, s.stack.length < 2 → Raises .stackUnderflow s (exec .mul s))

/-- R156: the quotient truncates toward zero (R151; Lean's `Int.tdiv` is that quotient); with fewer than
two elements the fault is `StackUnderflow`, a zero on the stack or not (R205). -/
def Obligations.DivTruncatesTowardZero : Prop :=
  (encodeBinary .div = [.B, .A, .B, .A] ∧ encodeText .div = "div".toList) ∧
  (∀ s xs a b, s.stack = xs ++ [a, b] → b ≠ 0 →
    exec .div s = .next ((s.setStack (xs ++ [Int.tdiv a b])).setPc (s.pc + 1))) ∧
  (∀ s xs a, s.stack = xs ++ [a, 0] → Raises .divideByZero s (exec .div s)) ∧
  (∀ s, s.stack.length < 2 → Raises .stackUnderflow s (exec .div s))

/-- MOD under the convention the spec takes (truncated: sign of the left operand); the convention is the
spec's own choice (92 D4; log entry 7, DESIGN CHOICE). -/
def Obligations.ModLeavesTruncatedRemainder : Prop :=
  (∀ s xs a b, s.stack = xs ++ [a, b] → b ≠ 0 →
    exec .mod s = .next ((s.setStack (xs ++ [Int.tmod a b])).setPc (s.pc + 1))) ∧
  (∀ s xs a, s.stack = xs ++ [a, 0] → Raises .divideByZero s (exec .mod s)) ∧
  (∀ s, s.stack.length < 2 → Raises .stackUnderflow s (exec .mod s))

/-- R151's formula is division truncating toward zero; R152's remainder pairs with it, is smaller than
the divisor, has the sign of the left operand, and agrees with the floored modulus wherever the operands
have the same sign or the remainder is 0. -/
def Obligations.QuotientAndRemainderLaws : Prop :=
  ∀ a b : Int, b ≠ 0 →
    tdiv a b = Int.tdiv a b ∧ (tdiv a b).natAbs * b.natAbs ≤ a.natAbs ∧ a = tdiv a b * b + tmod a b ∧
    (tmod a b).natAbs < b.natAbs ∧ (0 < tmod a b → 0 < a) ∧ (tmod a b < 0 → a < 0) ∧
    ((0 ≤ a ∧ 0 < b) ∨ (a ≤ 0 ∧ b < 0) ∨ tmod a b = 0 → modWith .floored a b = tmod a b)

/-! ### Control family (spec/45_control.md R170 to R177) -/

/-- R170: LABEL raises nothing and writes the pc alone. -/
def Obligations.LabelOnlyAdvances : Prop :=
  (∀ n, encodeBinary (.label n) = [.C, .A, .A] ++ encodeUInt n ∧
    encodeText (.label n) = "label ".toList ++ encodeDecimal n) ∧
  (∀ n s, exec (.label n) s = .next (s.setPc (s.pc + 1)))

/-- R171: the return index is the index after the CALL; the target is the LABEL's own index. -/
def Obligations.CallSavesReturnIndex : Prop :=
  (∀ n, encodeBinary (.call n) = [.C, .A, .B] ++ encodeUInt n ∧
    encodeText (.call n) = "call ".toList ++ encodeDecimal n) ∧
  (∀ n s k, findLabel s.program n = some k →
    exec (.call n) s = .next ((s.setCalls (s.calls ++ [s.pc + 1])).setPc k)) ∧
  (∀ n s, Instr.label n ∉ s.program → Raises .unresolvedLabel s (exec (.call n) s))

/-- R172. -/
def Obligations.JmpGoesToLabel : Prop :=
  (∀ n, encodeBinary (.jmp n) = [.C, .A, .C] ++ encodeUInt n ∧
    encodeText (.jmp n) = "jmp ".toList ++ encodeDecimal n) ∧
  (∀ n s k, findLabel s.program n = some k → exec (.jmp n) s = .next (s.setPc k)) ∧
  (∀ n s, Instr.label n ∉ s.program → Raises .unresolvedLabel s (exec (.jmp n) s))

/-- JMPZERO: the value is popped in both cases; the label is resolved only when taken, which is the
spec's reading (R173, 92 D6). -/
def Obligations.JmpzeroBranchesOnZero : Prop :=
  (∀ n s xs k, s.stack = xs ++ [0] → findLabel s.program n = some k →
    exec (.jmpzero n) s = .next ((s.setStack xs).setPc k)) ∧
  (∀ n s xs v, s.stack = xs ++ [v] → v ≠ 0 →
    exec (.jmpzero n) s = .next ((s.setStack xs).setPc (s.pc + 1))) ∧
  (∀ n s xs, s.stack = xs ++ [0] → Instr.label n ∉ s.program →
    Raises .unresolvedLabel s (exec (.jmpzero n) s)) ∧
  (∀ n s, s.stack = [] → Raises .stackUnderflow s (exec (.jmpzero n) s))

/-- JMPNEG: as JMPZERO, with the test "strictly negative" (R173, 92 D6). -/
def Obligations.JmpnegBranchesOnNegative : Prop :=
  (∀ n s xs v k, s.stack = xs ++ [v] → v < 0 → findLabel s.program n = some k →
    exec (.jmpneg n) s = .next ((s.setStack xs).setPc k)) ∧
  (∀ n s xs v, s.stack = xs ++ [v] → 0 ≤ v →
    exec (.jmpneg n) s = .next ((s.setStack xs).setPc (s.pc + 1))) ∧
  (∀ n s xs v, s.stack = xs ++ [v] → v < 0 → Instr.label n ∉ s.program →
    Raises .unresolvedLabel s (exec (.jmpneg n) s)) ∧
  (∀ n s, s.stack = [] → Raises .stackUnderflow s (exec (.jmpneg n) s))

/-- R176: RET takes no label, so `CallStackEmpty` is all it raises. -/
def Obligations.RetRestoresSavedIndex : Prop :=
  (encodeBinary .ret = [.C, .B, .C] ∧ encodeText .ret = "ret".toList) ∧
  (∀ s rs k, s.calls = rs ++ [k] → exec .ret s = .next ((s.setCalls rs).setPc k)) ∧
  (∀ s, s.calls = [] → Raises .callStackEmpty s (exec .ret s))

/-- R177: EXIT raises nothing, sets `T` and leaves S, H and R as they are; no other instruction sets `T`,
whether it completes or raises. Nothing is said of `pc`, which is not to be read (93 U6). -/
def Obligations.ExitAloneSetsTerminated : Prop :=
  (encodeBinary .exit = [.C, .C, .C] ∧ encodeText .exit = "exit".toList) ∧
  (∀ s, ∃ t, exec .exit s = .next t ∧ t.terminated = true ∧ t.stack = s.stack ∧ t.heap = s.heap ∧
    t.calls = s.calls ∧ t.fault = s.fault ∧ t.program = s.program ∧ t.trace = s.trace ∧
    t.answers = s.answers) ∧
  (∀ i s t, i ≠ Instr.exit → exec i s = .next t → t.terminated = s.terminated)

/-! ### Heap family and the heap itself (spec/46_heap.md R190 to R192, spec/20_memory.md R32) -/

/-- R190: value on top, address below it; every other cell and every other component stays. -/
def Obligations.StoreWritesOneCell : Prop :=
  (encodeBinary .store = [.B, .B, .A] ∧ encodeText .store = "store".toList) ∧
  (∀ s xs a v, s.stack = xs ++ [a, v] →
    ∃ t, exec .store s = .next t ∧ t.heap.read a = v ∧ (∀ b, b ≠ a → t.heap.read b = s.heap.read b) ∧
      t = (((s.setStack xs).setHeap t.heap).setPc (s.pc + 1))) ∧
  (∀ s, s.stack.length < 2 → Raises .stackUnderflow s (exec .store s))

/-- R191: an unset cell loads 0 (`Memory.read` of a cell that is not listed). -/
def Obligations.LoadPushesCell : Prop :=
  (encodeBinary .load = [.B, .B, .B] ∧ encodeText .load = "load".toList) ∧
  (∀ s xs a, s.stack = xs ++ [a] →
    exec .load s = .next ((s.setStack (xs ++ [s.heap.read a])).setPc (s.pc + 1))) ∧
  (∀ H a, (∀ v, (a, v) ∉ (H : Memory)) → H.read a = 0) ∧
  (∀ s, s.stack = [] → Raises .stackUnderflow s (exec .load s))

/-- R32: a cell reads back exactly what was last written, whatever was written to other cells since; a
cell never written reads 0. -/
def Obligations.HeapReadsBackLastWrite : Prop :=
  (∀ (H : Memory) a v, (H.write a v).read a = v) ∧
  (∀ (H : Memory) a b v, b ≠ a → (H.write a v).read b = H.read b) ∧
  (∀ a, Memory.read [] a = 0)

/-- The canonical form makes equal heaps equal data: the only observation of a heap is `H[a]` (R12). -/
def Obligations.CanonicalHeapsAreEqualData : Prop :=
  ∀ H K : Memory, H.wf → K.wf → (∀ a, H.read a = K.read a) → H = K

/-! ### Frames, family by family (spec/10_state.md R24) -/

/-- The stack and arithmetic families and LOAD, when they complete, change the stack and the pc alone, and
the pc by the default advance (R140, R150, R24). -/
def Obligations.StackAndArithmeticFrame : Prop :=
  ∀ i s t, i.op ∈ [Operation.push, .dup, .swap, .pop, .copy, .drop, .add, .sub, .mul, .div, .mod, .load] →
    Completes (exec i s) t → t = (s.setStack t.stack).setPc (s.pc + 1)

/-- The control family, when it completes: only JMPZERO and JMPNEG change the stack, by the one popped
element; only CALL and RET change the call-return stack; nothing else but the pc changes (R24, R178). -/
def Obligations.ControlFrame : Prop :=
  ∀ i s t, i.op ∈ [Operation.label, .call, .jmp, .jmpzero, .jmpneg, .ret] → Completes (exec i s) t →
    t = ((s.setStack t.stack).setCalls t.calls).setPc t.pc ∧
    t.stack = (if i.op ∈ [Operation.jmpzero, .jmpneg] then s.stack.dropLast else s.stack) ∧
    (i.op ∉ [Operation.call, .ret] → t.calls = s.calls)

/-- STORE and the I/O family, when they complete: R, `T`, `F` and the Program stay, the pc advances, the
operands alone leave the stack, WRITECH and WRITEI leave the heap, and STORE, READCH and READI leave every
cell but the one at their address operand (R24, R35, R36). -/
def Obligations.StoreAndIoFrame : Prop :=
  ∀ i s t, i.op ∈ [Operation.store, .readch, .readi, .writech, .writei] → Completes (exec i s) t →
    t.calls = s.calls ∧ t.terminated = s.terminated ∧ t.fault = s.fault ∧ t.program = s.program ∧
    t.pc = s.pc + 1 ∧
    t.stack = (if i.op = .store then s.stack.dropLast.dropLast else s.stack.dropLast) ∧
    (i.op ∈ [Operation.writech, .writei] → t.heap = s.heap) ∧
    (i.op = .store → t.trace = s.trace) ∧
    (i.op ∉ [Operation.readch, .readi] → t.answers = s.answers ∧ t.draws = s.draws) ∧
    (∀ a b, (if i.op = .store then s.stack.dropLast else s.stack).getLast? = some a → b ≠ a →
      t.heap.read b = s.heap.read b)

/-! ### Whole-machine rules -/

/-- R204: no instruction raises a RuntimeFault that the table does not list for it. -/
def Obligations.OnlyListedFaultsAreRaised : Prop :=
  ∀ i s t k, s.fault = none → exec i s = .next t → t.fault = some k → k ∈ canRaise i

/-- R42: no instruction and no step changes the bound Program, whether it completes or raises. -/
def Obligations.ProgramIsImmutable : Prop :=
  (∀ i s t, exec i s = .next t → t.program = s.program) ∧ (∀ s t, step s = .next t → t.program = s.program)

/-- R112, EXIT left out (its pc is not to be read): the pc after a completed instruction is the resolved
LABEL, the saved index, or one more. -/
def Obligations.PcAfterInstruction : Prop :=
  ∀ i s t, Completes (exec i s) t →
    match i with
    | .call n => findLabel s.program n = some t.pc
    | .jmp n => findLabel s.program n = some t.pc
    | .ret => s.calls.getLast? = some t.pc
    | .jmpzero n =>
      (s.stack.getLast? = some 0 ∧ findLabel s.program n = some t.pc) ∨
      (s.stack.getLast? ≠ some 0 ∧ t.pc = s.pc + 1)
    | .jmpneg n =>
      ∃ v, s.stack.getLast? = some v ∧
        ((v < 0 ∧ findLabel s.program n = some t.pc) ∨ (0 ≤ v ∧ t.pc = s.pc + 1))
    | .exit => True
    | _ => t.pc = s.pc + 1

/-- R131: no instruction reads the trace, and every instruction only appends to it, at most one event,
and none but the I/O family. -/
def Obligations.TraceIsWriteOnly : Prop :=
  ∀ i s, ∃ new : List Event, new.length ≤ 1 ∧
    (i.op ∉ [Operation.readch, .readi, .writech, .writei] → new = []) ∧
    (∀ t, exec i s = .next t → t.trace = s.trace ++ new) ∧
    (∀ es, exec i (s.setTrace es) = mapNext (fun t => t.setTrace (es ++ new)) (exec i s))

/-- Only READCH and READI call a read of the channel (R130): every other instruction does the same
whatever the host's answers would be, and leaves them to be answered. -/
def Obligations.OnlyReadsDependOnAnswers : Prop :=
  ∀ i s as, i.op ∉ [Operation.readch, .readi] →
    exec i (s.setAnswers as) = mapNext (fun t => t.setAnswers as) (exec i s)

/-- The invariant of a run is kept by every step, a faulting one included (R13, R14, R12). -/
def Obligations.StepKeepsRunInvariant : Prop :=
  ∀ s t, s.Inv → step s = .next t → t.Inv

/-- A fresh engine meets the invariant of a run. -/
def Obligations.FreshEngineMeetsRunInvariant : Prop :=
  State.reset.Inv ∧ ∀ P answers s, construct P answers = some s → s.Inv ∧ Enabled s

/-- Every enabled step has a successor, but for a read that the channel never answers (R9, R136). -/
def Obligations.EnabledStepHasSuccessor : Prop :=
  ∀ s, Enabled s →
    (∃ t, step s = .next t) ∨
    (step s = .fault .channelNeverAnswers ∧ (takeAnswer s).1 = .silent ∧ s.stack ≠ [] ∧
      (fetch s = some .readch ∨ fetch s = some .readi))

/-- No step exists in a final or in a faulted state (R121, R122; 92 D13 is the spec's own choice); a step
that raises leads to a state with no further step, never final (R210, R211). -/
def Obligations.NoStepAfterEndOrFault : Prop :=
  (∀ s, s.terminated = true → step s = .refused .stepAfterTermination) ∧
  (∀ s k, s.terminated = false → s.fault = some k → step s = .refused (.stepAfterFault k)) ∧
  (∀ s t k, step s = .next t → t.fault = some k →
    t.terminated = false ∧ step t = .refused (.stepAfterFault k))

/-- A Program in which every label operand is defined never raises `UnresolvedLabel` (R173's premise). -/
def Obligations.LabelClosedProgramResolves : Prop :=
  ∀ s t, LabelClosed s.program → step s = .next t → t.fault ≠ some .unresolvedLabel

/-- `run()` (R120): it never asks for a step that does not exist, it ends final or faulted, and once it has
ended more fuel changes nothing. -/
def Obligations.RunEndsFinalOrFaulted : Prop :=
  (∀ fuel s r, run fuel s ≠ .refused r) ∧
  (∀ fuel s t, run fuel s = .terminated t → t.terminated = true) ∧
  (∀ fuel s t k, run fuel s = .faulted k t → t.terminated = false ∧ t.fault = some k) ∧
  (∀ fuel more s, (∀ t, run fuel s ≠ .running t) → run (fuel + more) s = run fuel s)

/-! ### Sequencer (spec/41_sequencer.md) -/

/-- A step runs the fetched instruction; `withFetchWord` places the instruction of an opcode-table word
where the very next step runs it (log entry 3, DESIGN CHOICE). -/
def Obligations.StepRunsFetchedInstruction : Prop :=
  (∀ s i, Enabled s → s.program[s.pc]? = some i → step s = exec i s) ∧
  (∀ (s : State) nbits w i, decodeTableWord nbits w = some i →
    step (s.withFetchWord nbits w) = exec i (s.withFetchWord nbits w))

/-- R111: with `pc` out of range the step raises `PcOutOfRange`; an empty Program does so at the first
step; in range the step runs `P[pc]`, already decoded. -/
def Obligations.FetchPastEndFaults : Prop :=
  (∀ s, Enabled s → s.program.length ≤ s.pc → Raises .pcOutOfRange s (step s)) ∧
  (∀ answers s, construct [] answers = some s → Raises .pcOutOfRange s (step s)) ∧
  (∀ s (h : s.pc < s.program.length), Enabled s → step s = exec s.program[s.pc] s)

/-- An engine constructed from bytes runs, as its first step, the instruction that the bytes decode to
first (R92, R232, R110). -/
def Obligations.FirstStepRunsFirstDecoded : Prop :=
  ∀ bytes answers s l i, constructFromBytes bytes answers = .ok (some s) →
    decodeBinary (strip bytes) 0 = .ok (l, i) → step s = exec i s

/-- R116: the index of the first LABEL of the number; a branch raises where the Program has none. -/
def Obligations.FindLabelIsFirstLabel : Prop :=
  ∀ P n,
    (∀ k, findLabel P n = some k ↔ P[k]? = some (.label n) ∧ ∀ j, j < k → P[j]? ≠ some (.label n)) ∧
    (findLabel P n = none ↔ Instr.label n ∉ P) ∧
    (∀ s, s.program = P → findLabel P n = none → Raises .unresolvedLabel s (branchToLabel n s))

/-- R117: the index built once answers what the scan answers. -/
def Obligations.LabelIndexEqualsScan : Prop :=
  ∀ P n, lookupLabel (labelIndex P) n = findLabel P n

/-! ### Codec (spec/30_encoding.md, spec/40_codec.md) -/

/-- The integer fields: what an encoder emits is read back, inside any buffer, and is canonical: digits
without a leading `A` (R60, R81 to R84). -/
def Obligations.IntegerFieldsRoundTrip : Prop :=
  (∀ v x y, decodeUInt (x ++ encodeUInt v ++ y) x.length = .ok ((encodeUInt v).length, v)) ∧
  (∀ v x y, decodeSInt (x ++ encodeSInt v ++ y) x.length = .ok ((encodeSInt v).length, v)) ∧
  (∀ v, ∃ ds, encodeUInt v = ds ++ [Symbol.C] ∧ Symbol.C ∉ ds ∧ ds.head? ≠ some .A ∧
    encodeSInt v = Symbol.A :: encodeUInt v ∧ (0 < v → encodeSInt (-(v : Int)) = Symbol.B :: encodeUInt v))

/-- R89: decode of encode is the instruction, alone and inside a longer buffer; the converse fails. -/
def Obligations.DecodeEncodeInstruction : Prop :=
  (∀ i, decodeBinary (encodeBinary i) 0 = .ok ((encodeBinary i).length, i)) ∧
  (∀ i x y, decodeBinary (x ++ encodeBinary i ++ y) x.length = .ok ((encodeBinary i).length, i)) ∧
  (∃ a b l m i, a ≠ b ∧ decodeBinary a 0 = .ok (l, i) ∧ decodeBinary b 0 = .ok (m, i))

/-- R94: assemble of disassemble is the Program; the converse holds exactly for bytes with no comment and
every operand in canonical form, and each of the two conditions can fail alone. -/
def Obligations.AssembleDisassembleProgram : Prop :=
  (∀ P, assemble (disassemble P) = .ok P) ∧
  (∀ bytes P, assemble bytes = .ok P →
    (disassemble P = bytes ↔ (∀ b ∈ bytes, byteSymbol b ≠ none) ∧ OperandsCanonical (strip bytes))) ∧
  (∃ bytes P, (∀ b ∈ bytes, byteSymbol b ≠ none) ∧ assemble bytes = .ok P ∧ disassemble P ≠ bytes) ∧
  (∃ bytes P, OperandsCanonical (strip bytes) ∧ assemble bytes = .ok P ∧ disassemble P ≠ bytes)

/-- R99: the text form's round trips; the converse directions do not hold. -/
def Obligations.TextRoundTrips : Prop :=
  (∀ i, decodeText (encodeText i) = .ok i) ∧ (∀ P, fromText (toText P) = .ok P) ∧
  (∃ line i, decodeText line = .ok i ∧ encodeText i ≠ line) ∧
  (∃ text P, fromText text = .ok P ∧ toText P ≠ text)

/-- R87: the streaming decoder, which walks the decode tree one symbol at a time, gives on every buffer
what the decoder of the code table gives. -/
def Obligations.StreamingDecoderAgrees : Prop :=
  ∀ buf, streamDecode (.inCode .root) 0 buf = decodeBinary buf 0

/-- R86: a decoded instruction takes at least 3 symbols, all inside the buffer, and the result does not
depend on what follows them. -/
def Obligations.DecodeReadsItsOwnSymbols : Prop :=
  ∀ buf o l i, decodeBinary buf o = .ok (l, i) →
    3 ≤ l ∧ o + l ≤ buf.length ∧ ∀ y, decodeBinary (buf.take (o + l) ++ y) o = .ok (l, i)

/-- R61, R56: the nine illegal leading strings are refused whatever follows; every string of four symbols
starts with exactly one of the 24 codes and the nine illegal strings. -/
def Obligations.IllegalCodesRefusedAndCover : Prop :=
  (∀ bad ∈ illegalCodes, ∀ x y, decodeBinary (x ++ bad ++ y) x.length = .error .unrecognizedPrefix) ∧
  (∀ a b c d : Symbol,
    ((Operation.all.map Operation.code ++ illegalCodes).filter (fun p => p.isPrefixOf [a, b, c, d])).length = 1) ∧
  (∀ op, op ∈ Operation.all)

/-- R92, R203: after any bytes that assemble, their operands canonical or not, an error at the next symbol
is what `assemble` gives, and no instruction decoded before it is returned; every error of `assemble` is
the decoder's at a place that whole instructions lead up to. -/
def Obligations.AssembleGivesFirstError : Prop :=
  (∀ before P bytes e, assemble before = .ok P → strip bytes ≠ [] → decodeBinary (strip bytes) 0 = .error e →
    assemble (before ++ bytes) = .error e) ∧
  (∀ bytes e, assemble bytes = .error e →
    ∃ x y P, strip bytes = x ++ y ∧ assembleSymbols x = .ok P ∧ y ≠ [] ∧ decodeBinary y 0 = .error e)

/-- R63: a comment byte changes nothing wherever it stands, and none is emitted. -/
def Obligations.CommentsChangeNothing : Prop :=
  (∀ xs b ys, byteSymbol b = none → assemble (xs ++ b :: ys) = assemble (xs ++ ys)) ∧
  (∀ P, ∀ b ∈ disassemble P, byteSymbol b ≠ none)

/-- The text decoder's refusals, a blank line of a program's text (R98) among them, and its case folding
(R96). The order of the checks, the names of the
errors and the refusal of an operand after a zero-arity mnemonic are the spec's own choice (92 D16, D17). -/
def Obligations.TextDecoderRefusals : Prop :=
  (∀ line : Text, 2 ≤ line.count ' ' → decodeText line = .error .tooManyTokens) ∧
  (∀ m tok : Text, ' ' ∉ m → ' ' ∉ tok → (∀ op, mnemonic op ≠ m.map foldCase) →
    decodeText m = .error .unknownMnemonic ∧ decodeText (m ++ ' ' :: tok) = .error .unknownMnemonic) ∧
  (∀ P rest, fromText (toText P ++ Config.lineSep :: rest) = .error .unknownMnemonic) ∧
  (∀ op, op.kind ≠ .none → decodeText (mnemonic op) = .error .missingOperand) ∧
  (∀ op tok, op.kind = .none → ' ' ∉ tok →
    decodeText (mnemonic op ++ ' ' :: tok) = .error .unexpectedOperand) ∧
  (∀ op (m : Nat), op.kind = .uint → 0 < m →
    decodeText (mnemonic op ++ ' ' :: encodeDecimal (-(m : Int))) = .error .negativeLabel) ∧
  (∀ op tok, op.kind ≠ .none → ' ' ∉ tok → decodeDecimal tok = none →
    decodeText (mnemonic op ++ ' ' :: tok) = .error .nonNumericOperand) ∧
  (∀ line : Text, decodeText (line.map foldCase) = decodeText line)

/-- An ill-formed pair of operation and operand has no encoding and no text (R100; the refusal is the
spec's own choice, 92 D18), and a well-formed pair is exactly an instruction (R51). -/
def Obligations.IllFormedPairsAreRefused : Prop :=
  (∀ r, r.wellFormed = false →
    encodeBinaryRaw r = .error .illFormedInstruction ∧ encodeTextRaw r = .error .illFormedInstruction) ∧
  (∀ r, r.wellFormed = true ↔ ∃ i : Instr, i.toRaw = r)

/-- Words written out from the tables of spec/30_encoding.md decode to the instructions they stand for,
one of each family and each format. -/
def Obligations.SampleWordsDecode : Prop :=
  decodeBinary [.B, .C, .B, .B] 0 = .ok (4, .readi) ∧
  decodeBinary [.A, .A, .B, .B, .A, .B, .C] 0 = .ok (7, .push (-5)) ∧
  decodeBinary [.A, .B, .C, .A, .B, .A, .C] 0 = .ok (7, .drop 2) ∧
  decodeBinary [.B, .A, .B, .A] 0 = .ok (4, .div) ∧
  decodeBinary [.C, .B, .A, .B, .A, .C] 0 = .ok (6, .jmpzero 2) ∧
  decodeBinary [.C, .A, .A, .A, .B, .C] 0 = .ok (6, .label 1) ∧
  decodeBinary [.B, .B, .A] 0 = .ok (3, .store) ∧
  decodeBinary [.A, .A, .C] 0 = .error .invalidSign ∧
  decodeBinary [.C, .A, .B, .B] 0 = .error .missingTerminator

/-! ### Bounded parameters (spec/60_exceptions.md R209) -/

/-- With finite parameters a value or a stack past the limit raises `ResourceLimit`, a Program past it is
refused at construction, and inside the limit the operation does what it does unbounded: never a wrap, a
truncation or a silent drop. -/
def Obligations.FiniteLimitsFaultNeverWrap : Prop :=
  Config.limits = ⟨none, none, none, none⟩ ∧
  (∀ (b : Nat) (v : Int), Limits.admitsValue ⟨some b, none, none, none⟩ v = true ↔
    -(2 ^ (b - 1) : Int) ≤ v ∧ v < (2 ^ (b - 1) : Int)) ∧
  (∀ L v s rest, (L.admitsValue v = false ∨ ∃ c, L.stackCap = some c ∧ c < s.stack.length + 1) →
    Raises .resourceLimit s (pushWithin L v s rest)) ∧
  (∀ L v s rest, L.admitsValue v = true → (∀ c, L.stackCap = some c → s.stack.length + 1 ≤ c) →
    pushWithin L v s rest = rest (s.setStack (s.stack ++ [v]))) ∧
  (∀ L v s rest, (L.admitsValue v = false ∨ ∃ c, L.callCap = some c ∧ c < s.calls.length + 1) →
    Raises .resourceLimit s (rpushWithin L v s rest)) ∧
  (∀ L v s rest, L.admitsValue v = true → (∀ c, L.callCap = some c → s.calls.length + 1 ≤ c) →
    rpushWithin L v s rest = rest (s.setCalls (s.calls ++ [v]))) ∧
  (∀ L a v s rest, (L.admitsValue a = false ∨ L.admitsValue v = false) →
    Raises .resourceLimit s (memWriteWithin L a v s rest)) ∧
  (∀ L a v s rest, L.admitsValue a = true → L.admitsValue v = true →
    memWriteWithin L a v s rest = rest (s.setHeap (s.heap.write a v))) ∧
  (∀ L P answers m, L.progMax = some m → (constructWithin L P answers = none ↔ m < P.length)) ∧
  (∀ L buf o r, decodeBinaryWithin L buf o = .ok r → decodeBinary buf o = .ok r) ∧
  (∀ L buf o e, decodeBinary buf o = .error e → decodeBinaryWithin L buf o = .error e) ∧
  (∀ L buf o l i, decodeBinary buf o = .ok (l, i) → L.admitsValue i.operand = true →
    decodeBinaryWithin L buf o = .ok (l, i)) ∧
  (∀ L buf o l i, decodeBinary buf o = .ok (l, i) → L.admitsValue i.operand = false →
    decodeBinaryWithin L buf o = .error .operandRange)
end

