-- ==== Sys2Proof/Laws/Memory.lean ====
section
/-! SUPPORT. The heap's canonical form is kept by every heap operation. -/

namespace Sys2Proof.Machine

theorem Memory.wf_nil : Memory.wf [] := by simp [Memory.wf]

/-- Every address of an insertion is the inserted one or was there. -/
theorem Memory.mem_insert (H : Memory) (a v : Int) (c : Int × Int) :
    c ∈ Memory.insert H a v ↔ c = (a, v) ∨ c ∈ H := by
  induction H with
  | nil => simp [Memory.insert]
  | cons d H ih =>
    obtain ⟨b, w⟩ := d
    simp only [Memory.insert]
    split
    · simp
    · simp [ih, or_left_comm]

/-- Insertion at an address the heap does not list keeps the addresses rising. -/
theorem Memory.insert_pairwise (H : Memory) (a v : Int)
    (h : H.Pairwise (fun c d => c.1 < d.1)) (new : ∀ c ∈ H, c.1 ≠ a) :
    (Memory.insert H a v).Pairwise (fun c d => c.1 < d.1) := by
  induction H with
  | nil => simp [Memory.insert]
  | cons d H ih =>
    obtain ⟨b, w⟩ := d
    have hb : b ≠ a := new (b, w) (by simp)
    rw [List.pairwise_cons] at h
    simp only [Memory.insert]
    split
    · rename_i hab
      simp only [List.pairwise_cons, List.mem_cons, forall_eq_or_imp]
      exact ⟨⟨hab, fun c hc => hab.trans (h.1 c hc)⟩, h.1, h.2⟩
    · rename_i hab
      rw [List.pairwise_cons]
      refine ⟨fun c hc => ?_, ih h.2 fun c hc => new c (by simp [hc])⟩
      rcases (Memory.mem_insert H a v c).1 hc with rfl | hc
      · exact lt_of_le_of_ne (not_lt.1 hab) hb
      · exact h.1 c hc

/-- Erasing an address keeps the canonical form. -/
theorem Memory.filter_wf (H : Memory) (a : Int) (h : H.wf) : Memory.wf (H.filter (fun c => c.1 != a)) :=
  ⟨h.1.filter _, fun c hc => h.2 c (List.mem_filter.1 hc).1⟩

/-- A write keeps the canonical form. -/
theorem Memory.write_wf (H : Memory) (a v : Int) (h : H.wf) : (H.write a v).wf := by
  have hf := Memory.filter_wf H a h
  unfold Memory.write
  split
  · exact hf
  · rename_i hv
    refine ⟨Memory.insert_pairwise _ a v hf.1 fun c hc => ?_, fun c hc => ?_⟩
    · simpa using (List.mem_filter.1 hc).2
    · rcases (Memory.mem_insert _ a v c).1 hc with rfl | hc
      · exact hv
      · exact hf.2 c hc

/-- Any list of stores to the empty heap leaves it canonical. -/
theorem Memory.ofCells_wf (cells : List (Int × Int)) : (Memory.ofCells cells).wf := by
  have keep : ∀ (cs : List (Int × Int)) (H : Memory), H.wf →
      Memory.wf (cs.foldl (fun H c => Memory.write H c.1 c.2) H) := by
    intro cs
    induction cs with
    | nil => exact fun H h => h
    | cons c cs ih => exact fun H h => ih _ (Memory.write_wf H c.1 c.2 h)
  exact keep cells [] Memory.wf_nil

theorem State.reset_heap_wf : Memory.wf State.reset.heap := Memory.wf_nil

end Sys2Proof.Machine
end

