-- ==== Sys2Proof/Laws/State.lean ====
section
/-! SUPPORT. One lemma per field per update of one component, so that no proof unfolds a record update. -/

namespace Sys2Proof.Machine

/-! ### setStack -/

@[simp] theorem State.setStack_stack (s : State) (S : List Int) : (s.setStack S).stack = S := rfl
@[simp] theorem State.setStack_heap (s : State) (S : List Int) : (s.setStack S).heap = s.heap := rfl
@[simp] theorem State.setStack_calls (s : State) (S : List Int) : (s.setStack S).calls = s.calls := rfl
@[simp] theorem State.setStack_pc (s : State) (S : List Int) : (s.setStack S).pc = s.pc := rfl
@[simp] theorem State.setStack_terminated (s : State) (S : List Int) : (s.setStack S).terminated = s.terminated := rfl
@[simp] theorem State.setStack_fault (s : State) (S : List Int) : (s.setStack S).fault = s.fault := rfl
@[simp] theorem State.setStack_program (s : State) (S : List Int) : (s.setStack S).program = s.program := rfl
@[simp] theorem State.setStack_trace (s : State) (S : List Int) : (s.setStack S).trace = s.trace := rfl
@[simp] theorem State.setStack_answers (s : State) (S : List Int) : (s.setStack S).answers = s.answers := rfl
@[simp] theorem State.setStack_draws (s : State) (S : List Int) : (s.setStack S).draws = s.draws := rfl

/-! ### setHeap -/

@[simp] theorem State.setHeap_stack (s : State) (H : Memory) : (s.setHeap H).stack = s.stack := rfl
@[simp] theorem State.setHeap_heap (s : State) (H : Memory) : (s.setHeap H).heap = H := rfl
@[simp] theorem State.setHeap_calls (s : State) (H : Memory) : (s.setHeap H).calls = s.calls := rfl
@[simp] theorem State.setHeap_pc (s : State) (H : Memory) : (s.setHeap H).pc = s.pc := rfl
@[simp] theorem State.setHeap_terminated (s : State) (H : Memory) : (s.setHeap H).terminated = s.terminated := rfl
@[simp] theorem State.setHeap_fault (s : State) (H : Memory) : (s.setHeap H).fault = s.fault := rfl
@[simp] theorem State.setHeap_program (s : State) (H : Memory) : (s.setHeap H).program = s.program := rfl
@[simp] theorem State.setHeap_trace (s : State) (H : Memory) : (s.setHeap H).trace = s.trace := rfl
@[simp] theorem State.setHeap_answers (s : State) (H : Memory) : (s.setHeap H).answers = s.answers := rfl
@[simp] theorem State.setHeap_draws (s : State) (H : Memory) : (s.setHeap H).draws = s.draws := rfl

/-! ### setCalls -/

@[simp] theorem State.setCalls_stack (s : State) (R : List Nat) : (s.setCalls R).stack = s.stack := rfl
@[simp] theorem State.setCalls_heap (s : State) (R : List Nat) : (s.setCalls R).heap = s.heap := rfl
@[simp] theorem State.setCalls_calls (s : State) (R : List Nat) : (s.setCalls R).calls = R := rfl
@[simp] theorem State.setCalls_pc (s : State) (R : List Nat) : (s.setCalls R).pc = s.pc := rfl
@[simp] theorem State.setCalls_terminated (s : State) (R : List Nat) : (s.setCalls R).terminated = s.terminated := rfl
@[simp] theorem State.setCalls_fault (s : State) (R : List Nat) : (s.setCalls R).fault = s.fault := rfl
@[simp] theorem State.setCalls_program (s : State) (R : List Nat) : (s.setCalls R).program = s.program := rfl
@[simp] theorem State.setCalls_trace (s : State) (R : List Nat) : (s.setCalls R).trace = s.trace := rfl
@[simp] theorem State.setCalls_answers (s : State) (R : List Nat) : (s.setCalls R).answers = s.answers := rfl
@[simp] theorem State.setCalls_draws (s : State) (R : List Nat) : (s.setCalls R).draws = s.draws := rfl

/-! ### setPc -/

@[simp] theorem State.setPc_stack (s : State) (t : Nat) : (s.setPc t).stack = s.stack := rfl
@[simp] theorem State.setPc_heap (s : State) (t : Nat) : (s.setPc t).heap = s.heap := rfl
@[simp] theorem State.setPc_calls (s : State) (t : Nat) : (s.setPc t).calls = s.calls := rfl
@[simp] theorem State.setPc_pc (s : State) (t : Nat) : (s.setPc t).pc = t := rfl
@[simp] theorem State.setPc_terminated (s : State) (t : Nat) : (s.setPc t).terminated = s.terminated := rfl
@[simp] theorem State.setPc_fault (s : State) (t : Nat) : (s.setPc t).fault = s.fault := rfl
@[simp] theorem State.setPc_program (s : State) (t : Nat) : (s.setPc t).program = s.program := rfl
@[simp] theorem State.setPc_trace (s : State) (t : Nat) : (s.setPc t).trace = s.trace := rfl
@[simp] theorem State.setPc_answers (s : State) (t : Nat) : (s.setPc t).answers = s.answers := rfl
@[simp] theorem State.setPc_draws (s : State) (t : Nat) : (s.setPc t).draws = s.draws := rfl

/-! ### setTerminated -/

@[simp] theorem State.setTerminated_stack (s : State) (T : Bool) : (s.setTerminated T).stack = s.stack := rfl
@[simp] theorem State.setTerminated_heap (s : State) (T : Bool) : (s.setTerminated T).heap = s.heap := rfl
@[simp] theorem State.setTerminated_calls (s : State) (T : Bool) : (s.setTerminated T).calls = s.calls := rfl
@[simp] theorem State.setTerminated_pc (s : State) (T : Bool) : (s.setTerminated T).pc = s.pc := rfl
@[simp] theorem State.setTerminated_terminated (s : State) (T : Bool) : (s.setTerminated T).terminated = T := rfl
@[simp] theorem State.setTerminated_fault (s : State) (T : Bool) : (s.setTerminated T).fault = s.fault := rfl
@[simp] theorem State.setTerminated_program (s : State) (T : Bool) : (s.setTerminated T).program = s.program := rfl
@[simp] theorem State.setTerminated_trace (s : State) (T : Bool) : (s.setTerminated T).trace = s.trace := rfl
@[simp] theorem State.setTerminated_answers (s : State) (T : Bool) : (s.setTerminated T).answers = s.answers := rfl
@[simp] theorem State.setTerminated_draws (s : State) (T : Bool) : (s.setTerminated T).draws = s.draws := rfl

/-! ### setFault -/

@[simp] theorem State.setFault_stack (s : State) (F : Option RuntimeFault) : (s.setFault F).stack = s.stack := rfl
@[simp] theorem State.setFault_heap (s : State) (F : Option RuntimeFault) : (s.setFault F).heap = s.heap := rfl
@[simp] theorem State.setFault_calls (s : State) (F : Option RuntimeFault) : (s.setFault F).calls = s.calls := rfl
@[simp] theorem State.setFault_pc (s : State) (F : Option RuntimeFault) : (s.setFault F).pc = s.pc := rfl
@[simp] theorem State.setFault_terminated (s : State) (F : Option RuntimeFault) : (s.setFault F).terminated = s.terminated := rfl
@[simp] theorem State.setFault_fault (s : State) (F : Option RuntimeFault) : (s.setFault F).fault = F := rfl
@[simp] theorem State.setFault_program (s : State) (F : Option RuntimeFault) : (s.setFault F).program = s.program := rfl
@[simp] theorem State.setFault_trace (s : State) (F : Option RuntimeFault) : (s.setFault F).trace = s.trace := rfl
@[simp] theorem State.setFault_answers (s : State) (F : Option RuntimeFault) : (s.setFault F).answers = s.answers := rfl
@[simp] theorem State.setFault_draws (s : State) (F : Option RuntimeFault) : (s.setFault F).draws = s.draws := rfl

/-! ### setProgram -/

@[simp] theorem State.setProgram_stack (s : State) (P : Program) : (s.setProgram P).stack = s.stack := rfl
@[simp] theorem State.setProgram_heap (s : State) (P : Program) : (s.setProgram P).heap = s.heap := rfl
@[simp] theorem State.setProgram_calls (s : State) (P : Program) : (s.setProgram P).calls = s.calls := rfl
@[simp] theorem State.setProgram_pc (s : State) (P : Program) : (s.setProgram P).pc = s.pc := rfl
@[simp] theorem State.setProgram_terminated (s : State) (P : Program) : (s.setProgram P).terminated = s.terminated := rfl
@[simp] theorem State.setProgram_fault (s : State) (P : Program) : (s.setProgram P).fault = s.fault := rfl
@[simp] theorem State.setProgram_program (s : State) (P : Program) : (s.setProgram P).program = P := rfl
@[simp] theorem State.setProgram_trace (s : State) (P : Program) : (s.setProgram P).trace = s.trace := rfl
@[simp] theorem State.setProgram_answers (s : State) (P : Program) : (s.setProgram P).answers = s.answers := rfl
@[simp] theorem State.setProgram_draws (s : State) (P : Program) : (s.setProgram P).draws = s.draws := rfl

/-! ### record -/

@[simp] theorem State.record_stack (s : State) (e : Event) : (s.record e).stack = s.stack := rfl
@[simp] theorem State.record_heap (s : State) (e : Event) : (s.record e).heap = s.heap := rfl
@[simp] theorem State.record_calls (s : State) (e : Event) : (s.record e).calls = s.calls := rfl
@[simp] theorem State.record_pc (s : State) (e : Event) : (s.record e).pc = s.pc := rfl
@[simp] theorem State.record_terminated (s : State) (e : Event) : (s.record e).terminated = s.terminated := rfl
@[simp] theorem State.record_fault (s : State) (e : Event) : (s.record e).fault = s.fault := rfl
@[simp] theorem State.record_program (s : State) (e : Event) : (s.record e).program = s.program := rfl
@[simp] theorem State.record_trace (s : State) (e : Event) : (s.record e).trace = s.trace ++ [e] := rfl
@[simp] theorem State.record_answers (s : State) (e : Event) : (s.record e).answers = s.answers := rfl
@[simp] theorem State.record_draws (s : State) (e : Event) : (s.record e).draws = s.draws := rfl

/-! ### setAnswers -/

@[simp] theorem State.setAnswers_stack (s : State) (as : List ChanAnswer) : (s.setAnswers as).stack = s.stack := rfl
@[simp] theorem State.setAnswers_heap (s : State) (as : List ChanAnswer) : (s.setAnswers as).heap = s.heap := rfl
@[simp] theorem State.setAnswers_calls (s : State) (as : List ChanAnswer) : (s.setAnswers as).calls = s.calls := rfl
@[simp] theorem State.setAnswers_pc (s : State) (as : List ChanAnswer) : (s.setAnswers as).pc = s.pc := rfl
@[simp] theorem State.setAnswers_terminated (s : State) (as : List ChanAnswer) : (s.setAnswers as).terminated = s.terminated := rfl
@[simp] theorem State.setAnswers_fault (s : State) (as : List ChanAnswer) : (s.setAnswers as).fault = s.fault := rfl
@[simp] theorem State.setAnswers_program (s : State) (as : List ChanAnswer) : (s.setAnswers as).program = s.program := rfl
@[simp] theorem State.setAnswers_trace (s : State) (as : List ChanAnswer) : (s.setAnswers as).trace = s.trace := rfl
@[simp] theorem State.setAnswers_answers (s : State) (as : List ChanAnswer) : (s.setAnswers as).answers = as := rfl
@[simp] theorem State.setAnswers_draws (s : State) (as : List ChanAnswer) : (s.setAnswers as).draws = s.draws := rfl

/-! ### draw -/

@[simp] theorem State.draw_stack (s : State) : (s.draw).stack = s.stack := rfl
@[simp] theorem State.draw_heap (s : State) : (s.draw).heap = s.heap := rfl
@[simp] theorem State.draw_calls (s : State) : (s.draw).calls = s.calls := rfl
@[simp] theorem State.draw_pc (s : State) : (s.draw).pc = s.pc := rfl
@[simp] theorem State.draw_terminated (s : State) : (s.draw).terminated = s.terminated := rfl
@[simp] theorem State.draw_fault (s : State) : (s.draw).fault = s.fault := rfl
@[simp] theorem State.draw_program (s : State) : (s.draw).program = s.program := rfl
@[simp] theorem State.draw_trace (s : State) : (s.draw).trace = s.trace := rfl
@[simp] theorem State.draw_answers (s : State) : (s.draw).answers = s.answers := rfl
@[simp] theorem State.draw_draws (s : State) : (s.draw).draws = s.draws + 1 := rfl

/-! ### setTrace -/

@[simp] theorem State.setTrace_stack (s : State) (es : List Event) : (s.setTrace es).stack = s.stack := rfl
@[simp] theorem State.setTrace_heap (s : State) (es : List Event) : (s.setTrace es).heap = s.heap := rfl
@[simp] theorem State.setTrace_calls (s : State) (es : List Event) : (s.setTrace es).calls = s.calls := rfl
@[simp] theorem State.setTrace_pc (s : State) (es : List Event) : (s.setTrace es).pc = s.pc := rfl
@[simp] theorem State.setTrace_terminated (s : State) (es : List Event) : (s.setTrace es).terminated = s.terminated := rfl
@[simp] theorem State.setTrace_fault (s : State) (es : List Event) : (s.setTrace es).fault = s.fault := rfl
@[simp] theorem State.setTrace_program (s : State) (es : List Event) : (s.setTrace es).program = s.program := rfl
@[simp] theorem State.setTrace_trace (s : State) (es : List Event) : (s.setTrace es).trace = es := rfl
@[simp] theorem State.setTrace_answers (s : State) (es : List Event) : (s.setTrace es).answers = s.answers := rfl
@[simp] theorem State.setTrace_draws (s : State) (es : List Event) : (s.setTrace es).draws = s.draws := rfl

/-! ### The last update of one component counts -/

@[simp] theorem State.setStack_setStack (s : State) (A B : List Int) :
    (s.setStack A).setStack B = s.setStack B := rfl

@[simp] theorem State.setPc_setPc (s : State) (t u : Nat) : (s.setPc t).setPc u = s.setPc u := rfl

@[simp] theorem State.setStack_self (s : State) : s.setStack s.stack = s := rfl

@[simp] theorem State.setTrace_setTrace (s : State) (es fs : List Event) :
    (s.setTrace es).setTrace fs = s.setTrace fs := rfl

end Sys2Proof.Machine
end

