-- ==== Sys2Proof/Laws/Ops.lean ====
section
/-! SUPPORT. For each shared operation, everything it can do, said once. -/

namespace Sys2Proof.Machine

variable {s t : State} {k : RuntimeFault}

/-! ### Raising -/

theorem raise_raises (k : RuntimeFault) (s : State) : Raises k s (raise k s) :=
  ⟨_, rfl, rfl, rfl, rfl, rfl⟩

/-- Everything that is defined of the state a raise gives. -/
theorem raise_eq_next (h : raise k s = .next t) :
    t.fault = some k ∧ t.terminated = s.terminated ∧ t.trace = s.trace ∧ t.program = s.program ∧
      t.answers = s.answers ∧ t.heap.wf := by
  cases h
  exact ⟨rfl, rfl, rfl, rfl, rfl, Memory.ofCells_wf _⟩

/-- A raise in a state that differs from `s` in neither `T`, trace nor Program is a raise in `s`. -/
theorem Raises.of_same {u : State} {o : Outcome} (h : Raises k u o) (hT : u.terminated = s.terminated)
    (ht : u.trace = s.trace) (hP : u.program = s.program) : Raises k s o := by
  obtain ⟨t, ho, hf, h1, h2, h3⟩ := h
  exact ⟨t, ho, hf, h1.trans hT, h2.trans ht, h3.trans hP⟩

/-! ### Pushes and stores: the taken parameters are unbounded -/

@[simp] theorem limits_admitsValue (v : Int) : Config.limits.admitsValue v = true := rfl

@[simp] theorem inRange_limits {α : Type} (v : Int) (r : α) : inRange Config.limits v r = .ok r := rfl

theorem push_eq (v : Int) (s : State) (rest : State → Outcome) :
    push v s rest = rest (s.setStack (s.stack ++ [v])) := rfl

theorem rpush_eq (v : Nat) (s : State) (rest : State → Outcome) :
    rpush v s rest = rest (s.setCalls (s.calls ++ [v])) := rfl

theorem memWrite_eq (a v : Int) (s : State) (rest : State → Outcome) :
    memWrite a v s rest = rest (s.setHeap (s.heap.write a v)) := rfl

/-! ### Pops -/

theorem pop_of_stack {xs : List Int} {v : Int} (h : s.stack = xs ++ [v]) (rest : Int → State → Outcome) :
    pop s rest = rest v (s.setStack xs) := by
  simp [pop, h]

theorem pop_of_empty (h : s.stack = []) (rest : Int → State → Outcome) :
    pop s rest = raise .stackUnderflow s := by
  simp [pop, h]

theorem pop_cases (s : State) (rest : Int → State → Outcome) :
    (s.stack = [] ∧ pop s rest = raise .stackUnderflow s) ∨
    (∃ xs v, s.stack = xs ++ [v] ∧ pop s rest = rest v (s.setStack xs)) := by
  rcases List.eq_nil_or_concat s.stack with h | ⟨xs, v, h⟩
  · exact .inl ⟨h, pop_of_empty h rest⟩
  · rw [List.concat_eq_append] at h
    exact .inr ⟨xs, v, h, pop_of_stack h rest⟩

theorem rpop_of_calls {rs : List Nat} {v : Nat} (h : s.calls = rs ++ [v]) (rest : Nat → State → Outcome) :
    rpop s rest = rest v (s.setCalls rs) := by
  simp [rpop, h]

theorem rpop_of_empty (h : s.calls = []) (rest : Nat → State → Outcome) :
    rpop s rest = raise .callStackEmpty s := by
  simp [rpop, h]

theorem rpop_cases (s : State) (rest : Nat → State → Outcome) :
    (s.calls = [] ∧ rpop s rest = raise .callStackEmpty s) ∨
    (∃ rs v, s.calls = rs ++ [v] ∧ rpop s rest = rest v (s.setCalls rs)) := by
  rcases List.eq_nil_or_concat s.calls with h | ⟨rs, v, h⟩
  · exact .inl ⟨h, rpop_of_empty h rest⟩
  · rw [List.concat_eq_append] at h
    exact .inr ⟨rs, v, h, rpop_of_calls h rest⟩

theorem popTwo_of_stack {xs : List Int} {a b : Int} (h : s.stack = xs ++ [a, b])
    (rest : Int → Int → State → Outcome) : popTwo s rest = rest a b (s.setStack xs) := by
  have hb : s.stack = (xs ++ [a]) ++ [b] := by simp [h]
  rw [popTwo, pop_of_stack hb, pop_of_stack (State.setStack_stack s (xs ++ [a]))]
  rfl

/-- Fewer than two elements: one of the two pops raises, in a state that differs from `s` in the
stack alone. -/
theorem popTwo_cases (s : State) (rest : Int → Int → State → Outcome) :
    (s.stack.length < 2 ∧ ∃ S, popTwo s rest = raise .stackUnderflow (s.setStack S)) ∨
    (∃ xs a b, s.stack = xs ++ [a, b] ∧ popTwo s rest = rest a b (s.setStack xs)) := by
  rcases List.eq_nil_or_concat s.stack with h | ⟨ys, b, h⟩
  · exact .inl ⟨by simp [h], s.stack, by rw [popTwo, pop_of_empty h]; rfl⟩
  · rcases List.eq_nil_or_concat ys with h' | ⟨xs, a, h'⟩
    · subst h'
      rw [List.concat_eq_append] at h
      refine .inl ⟨by simp [h], [], ?_⟩
      rw [popTwo, pop_of_stack h, pop_of_empty (State.setStack_stack s [])]
    · have h2 : s.stack = xs ++ [a, b] := by simp [h, h']
      exact .inr ⟨xs, a, b, h2, popTwo_of_stack h2 rest⟩

/-! ### The channel -/

/-- What using up an answer leaves alone. -/
theorem takeAnswer_same (s : State) :
    (takeAnswer s).2.stack = s.stack ∧ (takeAnswer s).2.heap = s.heap ∧ (takeAnswer s).2.calls = s.calls ∧
    (takeAnswer s).2.pc = s.pc ∧ (takeAnswer s).2.terminated = s.terminated ∧
    (takeAnswer s).2.fault = s.fault ∧ (takeAnswer s).2.program = s.program ∧
    (takeAnswer s).2.trace = s.trace := by
  unfold takeAnswer
  split <;> simp

theorem takeAnswer_of_script {a : ChanAnswer} {as : List ChanAnswer} (h : s.answers = a :: as) :
    takeAnswer s = (a, s.setAnswers as) := by
  simp [takeAnswer, h]

theorem chanRead_cases (mk : Int → Event) (s : State) (rest : Int → State → Outcome) :
    (∃ v, (takeAnswer s).1 = .value v ∧ chanRead mk s rest = rest v ((takeAnswer s).2.record (mk v))) ∨
    ((takeAnswer s).1 = .fail ∧ chanRead mk s rest = raise .ioFailure (takeAnswer s).2) ∨
    ((takeAnswer s).1 = .silent ∧ chanRead mk s rest = .fault .channelNeverAnswers) := by
  unfold chanRead
  cases h : (takeAnswer s).1 with
  | value v => exact .inl ⟨v, rfl, rfl⟩
  | fail => exact .inr (.inl ⟨rfl, rfl⟩)
  | silent => exact .inr (.inr ⟨rfl, rfl⟩)

/-! ### Branches -/

theorem branchToLabel_cases (n : Nat) (s : State) :
    (findLabel s.program n = none ∧ branchToLabel n s = raise .unresolvedLabel s) ∨
    (∃ k, findLabel s.program n = some k ∧ branchToLabel n s = .next (s.setPc k)) := by
  unfold branchToLabel
  cases h : findLabel s.program n with
  | none => exact .inl ⟨rfl, rfl⟩
  | some k => exact .inr ⟨k, rfl, rfl⟩

/-! ### The operand forms -/

theorem elementAtDepth_cases (S : List Int) (n : Int) :
    ((n < 0 ∨ (S.length : Int) ≤ n) ∧ elementAtDepth S n = none) ∨
    (∃ v, 0 ≤ n ∧ n < S.length ∧ S[S.length - 1 - n.toNat]? = some v ∧ elementAtDepth S n = some v) := by
  by_cases h : 0 ≤ n ∧ n < (S.length : Int)
  · obtain ⟨h0, hn⟩ := h
    have hi : S.length - 1 - n.toNat < S.length := by omega
    exact .inr ⟨S[S.length - 1 - n.toNat], h0, hn, by simp [hi], by simp [elementAtDepth, h0, hn, hi]⟩
  · exact .inl ⟨by omega, by simp [elementAtDepth, h]⟩

theorem slideUnderTop_cases (S : List Int) (n : Int) :
    ((n < 0 ∨ (S.length : Int) < n + 1) ∧ slideUnderTop S n = none) ∨
    (0 ≤ n ∧ n + 1 ≤ S.length ∧
      slideUnderTop S n = some (S.take (S.length - 1 - n.toNat) ++ S.drop (S.length - 1))) := by
  by_cases h : n < 0 ∨ n + 1 > (S.length : Int)
  · exact .inl ⟨by omega, by simp only [slideUnderTop, if_pos h]⟩
  · exact .inr ⟨by omega, by omega, by simp only [slideUnderTop, if_neg h]⟩

/-! ### The step -/

theorem stepRefusal_none : stepRefusal s = none ↔ Enabled s := by
  unfold stepRefusal Enabled
  cases s.terminated <;> cases s.fault <;> simp

end Sys2Proof.Machine
end

