-- ==== Sys2Proof/Laws/PerInstr.lean ====
section
/-! SUPPORT. Facts about every instruction as syntax, one lemma per constructor. -/

namespace Sys2Proof.Laws.EncodedShape

/-- An instruction is a well-formed pair and its own checked form (spec/30_encoding.md R51), its encoding
starts with its code (R85) and has at least 3 symbols (R57). -/
def Statement (i : Instr) : Prop :=
  i.toRaw.wellFormed = true ∧ i.toRaw.check = .ok i ∧ i.op.code <+: encodeBinary i ∧
    3 ≤ (encodeBinary i).length

/-- An operation without operand: the encoding is the code. -/
theorem of_none {i : Instr} (hk : i.op.kind = .none) (h0 : i.operand = 0) (hw : i.op.withOperand 0 = i)
    (hl : 3 ≤ i.op.code.length) : Statement i := by
  have wf : i.toRaw.wellFormed = true := by simp [RawInstr.wellFormed, Instr.toRaw, hk, h0]
  have he : encodeBinary i = i.op.code := by simp [encodeBinary, hk]
  refine ⟨wf, ?_, by simp [he], by simpa [he] using hl⟩
  simp only [RawInstr.check, wf, if_true]
  simp [Instr.toRaw, h0, hw]

theorem encodeUInt_length (v : Nat) : 1 ≤ (encodeUInt v).length := by
  simp [encodeUInt]

theorem encodeSInt_length (v : Int) : 2 ≤ (encodeSInt v).length := by
  unfold encodeSInt
  split <;> simpa using encodeUInt_length _

/-- A signed operand: sign and terminator follow a code of at least 2 symbols. -/
theorem of_sint {i : Instr} (hk : i.op.kind = .sint) (hw : i.op.withOperand i.operand = i)
    (hl : 2 ≤ i.op.code.length) : Statement i := by
  have wf : i.toRaw.wellFormed = true := by simp [RawInstr.wellFormed, Instr.toRaw, hk]
  have he : encodeBinary i = i.op.code ++ encodeSInt i.operand := by simp [encodeBinary, hk]
  refine ⟨wf, ?_, by simp [he], ?_⟩
  · simp only [RawInstr.check, wf, if_true]
    simp [Instr.toRaw, hw]
  · have := encodeSInt_length i.operand
    simp only [he, List.length_append]
    omega

/-- A label number: a terminator follows a code of at least 2 symbols. -/
theorem of_uint {i : Instr} (hk : i.op.kind = .uint) (h0 : 0 ≤ i.operand) (hw : i.op.withOperand i.operand = i)
    (hl : 2 ≤ i.op.code.length) : Statement i := by
  have wf : i.toRaw.wellFormed = true := by simp [RawInstr.wellFormed, Instr.toRaw, hk, h0]
  have he : encodeBinary i = i.op.code ++ encodeUInt i.operand.toNat := by simp [encodeBinary, hk]
  refine ⟨wf, ?_, by simp [he], ?_⟩
  · simp only [RawInstr.check, wf, if_true]
    simp [Instr.toRaw, hw]
  · have := encodeUInt_length i.operand.toNat
    simp only [he, List.length_append]
    omega

theorem readch : Statement .readch := of_none rfl rfl rfl (by decide)
theorem readi : Statement .readi := of_none rfl rfl rfl (by decide)
theorem writech : Statement .writech := of_none rfl rfl rfl (by decide)
theorem writei : Statement .writei := of_none rfl rfl rfl (by decide)
theorem push (v : Int) : Statement (.push v) := of_sint rfl rfl (by simp [Instr.op, Operation.code])
theorem dup : Statement .dup := of_none rfl rfl rfl (by decide)
theorem swap : Statement .swap := of_none rfl rfl rfl (by decide)
theorem pop : Statement .pop := of_none rfl rfl rfl (by decide)
theorem copy (n : Int) : Statement (.copy n) := of_sint rfl rfl (by simp [Instr.op, Operation.code])
theorem drop (n : Int) : Statement (.drop n) := of_sint rfl rfl (by simp [Instr.op, Operation.code])
theorem add : Statement .add := of_none rfl rfl rfl (by decide)
theorem sub : Statement .sub := of_none rfl rfl rfl (by decide)
theorem mul : Statement .mul := of_none rfl rfl rfl (by decide)
theorem div : Statement .div := of_none rfl rfl rfl (by decide)
theorem mod : Statement .mod := of_none rfl rfl rfl (by decide)
theorem label (n : Nat) : Statement (.label n) := of_uint rfl (Int.natCast_nonneg n) rfl (by simp [Instr.op, Operation.code])
theorem call (n : Nat) : Statement (.call n) := of_uint rfl (Int.natCast_nonneg n) rfl (by simp [Instr.op, Operation.code])
theorem jmp (n : Nat) : Statement (.jmp n) := of_uint rfl (Int.natCast_nonneg n) rfl (by simp [Instr.op, Operation.code])
theorem jmpzero (n : Nat) : Statement (.jmpzero n) := of_uint rfl (Int.natCast_nonneg n) rfl (by simp [Instr.op, Operation.code])
theorem jmpneg (n : Nat) : Statement (.jmpneg n) := of_uint rfl (Int.natCast_nonneg n) rfl (by simp [Instr.op, Operation.code])
theorem ret : Statement .ret := of_none rfl rfl rfl (by decide)
theorem exit : Statement .exit := of_none rfl rfl rfl (by decide)
theorem store : Statement .store := of_none rfl rfl rfl (by decide)
theorem load : Statement .load := of_none rfl rfl rfl (by decide)

end Sys2Proof.Laws.EncodedShape
end

