-- ==== Sys2Proof/Tests/Slice0.lean ====
section
/-! SUPPORT. Tests, expected results from spec/95_test_vectors.md (its ids stand in the comments), and for
every obligation with hypotheses one theorem that meets them, clause by clause. -/

namespace Sys2Proof.Tests

open Sys2Proof Sys2Proof.Machine

/-! ### Helpers -/

/-- Symbols from the letters the spec writes them with. -/
def sym (t : String) : List Symbol :=
  t.toList.filterMap (fun c => if c = 'A' then some .A else if c = 'B' then some .B else if c = 'C' then some .C else none)

/-- The reset state with an operand stack. -/
def st (S : List Int) : State := State.reset.setStack S

/-- The reset state with an operand stack, scripted answers and a heap. -/
def io (S : List Int) (H : Memory) (as : List ChanAnswer) : State := ((st S).setHeap H).setAnswers as

/-- The reset state bound to a Program, at `pc`, with an operand stack and a call-return stack. -/
def at_ (P : Program) (pc : Nat) (S : List Int) (R : List Nat) : State :=
  (((st S).setProgram P).setPc pc).setCalls R

/-- One component of the next state. -/
def after {α : Type} (f : State → α) : Outcome → Option α
  | .next t => some (f t)
  | .fault _ => none
  | .refused _ => none

/-- The operand stack after an instruction on stack `S`. -/
def stackAfter (i : Instr) (S : List Int) : Option (List Int) := after State.stack (exec i (st S))

/-- The fault status after an instruction on stack `S`. -/
def faultAfter (i : Instr) (S : List Int) : Option (Option RuntimeFault) := after State.fault (exec i (st S))

/-- Program Q of section 2.9. -/
def progQ : Program :=
  [.label 0, .push 1, .label 7, .ret, .call 7, .jmp 0, .jmpzero 7, .jmpneg 7, .exit]

/-! ### Well-formedness: an ill-formed term for each check (R51, R100) -/

theorem test_wellFormed_zero_arity :
    (RawInstr.mk .add 3).wellFormed = false ∧ (RawInstr.mk .add 3).check = .error .illFormedInstruction ∧
      (RawInstr.mk .add 0).check = .ok .add := by decide

theorem test_wellFormed_label :
    (RawInstr.mk .label (-1)).wellFormed = false ∧
      (RawInstr.mk .jmp (-2)).check = .error .illFormedInstruction ∧
      (RawInstr.mk .label 0).check = .ok (.label 0) := by decide

theorem test_wellFormed_signed : (RawInstr.mk .copy (-1)).check = .ok (.copy (-1)) := by decide

theorem test_illformed_has_no_encoding :
    disassembleRaw [⟨.exit, 0⟩, ⟨.ret, 1⟩] = .error .illFormedInstruction ∧
      toTextRaw [⟨.exit, 0⟩, ⟨.call, -1⟩] = .error .illFormedInstruction := by decide

/-! ### Integer fields (V-INT) -/

-- V-INT-1, 2, 6, 8, 13
theorem test_encodeUInt :
    encodeUInt 0 = sym "C" ∧ encodeUInt 1 = sym "BC" ∧ encodeUInt 5 = sym "BABC" ∧ encodeUInt 8 = sym "BAAAC" ∧
      encodeUInt 1000 = sym "BBBBBABAAAC" := by decide

-- V-INT-20, 22, 23, 24, 26
theorem test_encodeSInt :
    encodeSInt 0 = sym "AC" ∧ encodeSInt (-1) = sym "BBC" ∧ encodeSInt 5 = sym "ABABC" ∧
      encodeSInt (-5) = sym "BBABC" ∧ encodeSInt (-128) = sym "BBAAAAAAAC" := by decide

-- V-INT-30 to 38
theorem test_decode_fields :
    decodeUInt (sym "AABC") 0 = .ok (4, 1) ∧ decodeUInt (sym "AAAC") 0 = .ok (4, 0) ∧
      decodeSInt (sym "BC") 0 = .ok (2, 0) ∧ decodeSInt (sym "BAAC") 0 = .ok (4, 0) ∧
      decodeSInt (sym "C") 0 = .error .invalidSign ∧ decodeSInt [] 0 = .error .missingTerminator ∧
      decodeSInt (sym "A") 0 = .error .missingTerminator ∧ decodeUInt (sym "BAB") 0 = .error .missingTerminator ∧
      decodeUInt (sym "AABABCB") 2 = .ok (4, 5) := by decide

-- V-INT-1, 2, 20, 22 against V-INT-30, 32, 33 (R60)
theorem test_canonical_field :
    canonicalField .label (sym "C") = true ∧ canonicalField .label (sym "BC") = true ∧
      canonicalField .label (sym "AABC") = false ∧ canonicalField .push (sym "AC") = true ∧
      canonicalField .push (sym "BBC") = true ∧ canonicalField .push (sym "BC") = false ∧
      canonicalField .push (sym "BAAC") = false := by decide

/-! ### Decoding, one word for every constructor (V-ENC-1 to 24), written out symbol by symbol -/

theorem test_decode_stack :
    decodeBinary [.A, .A, .A, .B, .B, .C] 0 = .ok (6, .push 3) ∧
      decodeBinary [.A, .C, .A] 0 = .ok (3, .dup) ∧ decodeBinary [.A, .C, .B] 0 = .ok (3, .swap) ∧
      decodeBinary [.A, .C, .C] 0 = .ok (3, .pop) ∧
      decodeBinary [.A, .B, .A, .A, .B, .B, .C] 0 = .ok (7, .copy 3) ∧
      decodeBinary [.A, .B, .C, .A, .B, .B, .C] 0 = .ok (7, .drop 3) := by decide

theorem test_decode_arith :
    decodeBinary [.B, .A, .A, .A] 0 = .ok (4, .add) ∧ decodeBinary [.B, .A, .A, .B] 0 = .ok (4, .sub) ∧
      decodeBinary [.B, .A, .A, .C] 0 = .ok (4, .mul) ∧ decodeBinary [.B, .A, .B, .A] 0 = .ok (4, .div) ∧
      decodeBinary [.B, .A, .B, .B] 0 = .ok (4, .mod) := by decide

theorem test_decode_control :
    decodeBinary [.C, .A, .A, .B, .B, .C] 0 = .ok (6, .label 3) ∧
      decodeBinary [.C, .A, .B, .B, .B, .C] 0 = .ok (6, .call 3) ∧
      decodeBinary [.C, .A, .C, .B, .B, .C] 0 = .ok (6, .jmp 3) ∧
      decodeBinary [.C, .B, .A, .B, .B, .C] 0 = .ok (6, .jmpzero 3) ∧
      decodeBinary [.C, .B, .B, .B, .B, .C] 0 = .ok (6, .jmpneg 3) ∧
      decodeBinary [.C, .B, .C] 0 = .ok (3, .ret) ∧ decodeBinary [.C, .C, .C] 0 = .ok (3, .exit) := by decide

theorem test_decode_io_heap :
    decodeBinary [.B, .C, .B, .A] 0 = .ok (4, .readch) ∧ decodeBinary [.B, .C, .B, .B] 0 = .ok (4, .readi) ∧
      decodeBinary [.B, .C, .A, .A] 0 = .ok (4, .writech) ∧ decodeBinary [.B, .C, .A, .B] 0 = .ok (4, .writei) ∧
      decodeBinary [.B, .B, .A] 0 = .ok (3, .store) ∧ decodeBinary [.B, .B, .B] 0 = .ok (3, .load) := by decide

-- V-ENC-30 to 40
theorem test_encode :
    encodeBinary (.push 0) = sym "AAAC" ∧ encodeBinary (.push (-3)) = sym "AABBBC" ∧
      encodeBinary (.push 42) = sym "AAABABABAC" ∧ encodeBinary (.copy (-1)) = sym "ABABBC" ∧
      encodeBinary (.drop 2) = sym "ABCABAC" ∧ encodeBinary (.label 0) = sym "CAAC" ∧
      encodeBinary (.jmpzero 2) = sym "CBABAC" ∧ encodeBinary .exit = sym "CCC" := by decide

-- V-DEC-1 to 9, 12 to 14
theorem test_decode_corners :
    decodeBinary (sym "AABC") 0 = .ok (4, .push 0) ∧ decodeBinary (sym "AAAABC") 0 = .ok (6, .push 1) ∧
      decodeBinary (sym "AABAC") 0 = .ok (5, .push 0) ∧ decodeBinary (sym "CAAABC") 0 = .ok (6, .label 1) ∧
      decodeBinary (sym "AAC") 0 = .error .invalidSign ∧ decodeBinary (sym "ABAC") 0 = .error .invalidSign ∧
      decodeBinary (sym "AA") 0 = .error .missingTerminator ∧ decodeBinary (sym "AAAB") 0 = .error .missingTerminator ∧
      decodeBinary (sym "CABB") 0 = .error .missingTerminator ∧ decodeBinary [] 0 = .error .unrecognizedPrefix ∧
      decodeBinary (sym "CCCAAABC") 3 = .ok (5, .push 1) ∧ decodeBinary (sym "ACAB") 0 = .ok (3, .dup) := by decide

-- V-DEC-10
theorem test_decode_illegal :
    ∀ bad ∈ illegalCodes, decodeBinary bad 0 = .error .unrecognizedPrefix := by decide

-- V-DEC-11
theorem test_decode_truncated :
    ∀ t ∈ ["A", "B", "C", "AB", "AC", "BA", "BB", "BC", "CA", "CB", "CC", "BAA", "BAB", "BCA", "BCB"],
      decodeBinary (sym t) 0 = .error .unrecognizedPrefix := by decide

theorem test_stream_decode :
    streamDecode (.inCode .root) 0 (sym "AABBABCC") = .ok (7, .push (-5)) ∧
      streamDecode (.inCode .root) 0 (sym "AAC") = .error .invalidSign ∧
      streamDecode (.inCode .root) 0 (sym "CABB") = .error .missingTerminator := by decide

/-! ### The opcode table: every row's packed code (R70), with the zero operand -/

theorem test_table_words :
    [0x64, 0x65, 0x60, 0x61, 0x00, 0x08, 0x09, 0x0A, 0x04, 0x06, 0x40, 0x41].map (decodeTableWord 8) =
      [some .readch, some .readi, some .writech, some .writei, some (.push 0), some .dup, some .swap, some .pop,
       some (.copy 0), some (.drop 0), some .add, some .sub] ∧
    [0x42, 0x44, 0x45, 0x20, 0x21, 0x22, 0x24, 0x25, 0x26, 0x2A, 0x14, 0x15].map (decodeTableWord 8) =
      [some .mul, some .div, some .mod, some (.label 0), some (.call 0), some (.jmp 0), some (.jmpzero 0),
       some (.jmpneg 0), some .ret, some .exit, some .store, some .load] := by decide

-- 16#5: A, B, B, the illegal ABB; no row has it
theorem test_table_word_of_no_row : decodeTableWord 8 0x05 = none := by decide

theorem test_fetch_word_runs_first :
    after State.stack (core.step (State.reset.withFetchWord 8 0x00)) = some [0] ∧
      after State.fault (core.step (State.reset.withFetchWord 8 0x26)) = some (some .callStackEmpty) ∧
      after State.terminated (core.step (State.reset.withFetchWord 8 0x2A)) = some true := by decide

/-! ### Program container (V-ASM) -/

-- V-ASM-1 to 5
theorem test_assemble :
    assemble [] = .ok [] ∧ assemble [0x68, 0x65, 0x6C, 0x6C, 0x6F] = .ok [] ∧
      assemble [0x20, 0x20, 0x20, 0x09, 0x0A, 0x0A, 0x0A, 0x0A] = .ok [.push 1, .exit] ∧
      assemble [0x70, 0x20, 0x75, 0x20, 0x73, 0x20, 0x68, 0x09, 0x31, 0x0A, 0x0A, 0x0A, 0x0A] = .ok [.push 1, .exit] ∧
      assemble [0x20, 0x20, 0x20, 0x09, 0x0D, 0x0A, 0x0A, 0x0A, 0x0A] = .ok [.push 1, .exit] := by decide

-- V-ASM-6 to 8
theorem test_assemble_errors :
    assembleSymbols (sym "AAABCCC") = .error .unrecognizedPrefix ∧
      assembleSymbols (sym "CCCABBCCC") = .error .unrecognizedPrefix ∧
      assembleSymbols (sym "AABC") = .ok [.push 0] ∧ disassembleSymbols [.push 0] = sym "AAAC" := by decide

-- V-ASM-9, 10
theorem test_disassemble :
    disassemble [] = [] ∧
      disassemble [.push 1, .exit] = [0x20, 0x20, 0x20, 0x09, 0x0A, 0x0A, 0x0A, 0x0A] := by decide

/-! ### Text (V-TXT) -/

-- V-TXT-5, 7, 15, 25, 26
theorem test_encodeText :
    encodeText (.copy 3) = "copy 3".toList ∧ encodeText .add = "add".toList ∧
      encodeText (.jmpzero 3) = "jmpzero 3".toList ∧ encodeText (.push (-3)) = "push -3".toList ∧
      encodeText (.push 0) = "push 0".toList := by decide

-- V-TXT-30 to 36
theorem test_decodeText :
    decodeText "PUSH 5".toList = .ok (.push 5) ∧ decodeText "Push 5".toList = .ok (.push 5) ∧
      decodeText "push 007".toList = .ok (.push 7) ∧ decodeText "push -0".toList = .ok (.push 0) ∧
      decodeText "copy -1".toList = .ok (.copy (-1)) ∧ decodeText "label -0".toList = .ok (.label 0) ∧
      decodeText "label -1".toList = .error .negativeLabel ∧ decodeText "jmp -2".toList = .error .negativeLabel := by
  decide

-- V-TXT-37, 38
theorem test_decodeText_operand :
    decodeText "push".toList = .error .missingOperand ∧
      ∀ t ∈ ["push x", "push 1.5", "push +5", "push -", "push "],
        decodeText t.toList = .error .nonNumericOperand := by decide

-- V-TXT-39 to 41
theorem test_decodeText_tokens :
    (∀ t ∈ ["push 1 2", "push  1", " push 1"], decodeText t.toList = .error .tooManyTokens) ∧
      (∀ t ∈ ["foo", "foo 1", "", " dup"], decodeText t.toList = .error .unknownMnemonic) ∧
      (∀ t ∈ ["dup 3", "exit 0", "dup "], decodeText t.toList = .error .unexpectedOperand) := by decide

-- V-TXT-50 to 57
theorem test_program_text :
    toText [] = [] ∧ toText [.push 1, .exit] = "push 1\nexit\n".toList ∧ fromText [] = .ok [] ∧
      fromText "exit".toList = .ok [.exit] ∧ fromText "exit\n".toList = .ok [.exit] ∧
      fromText "exit\n\n".toList = .error .unknownMnemonic ∧ fromText "\nexit\n".toList = .error .unknownMnemonic ∧
      fromText "exit\r\n".toList = .error .unknownMnemonic ∧
      fromText "push 1\nbogus\nexit\n".toList = .error .unknownMnemonic := by decide

-- V-IO-7, 8, 9, 10, 12: the renderings
theorem test_render :
    render [.rdInt 4, .wrChar 65, .wrInt (-17), .wrInt 0, .wrChar 10] = some "A-170\n".toList ∧
      render [.wrInt 1, .wrChar (-1)] = none := by decide

/-! ### I/O family (V-IO) -/

-- V-IO-1, 4
theorem test_readch :
    after (fun t => (t.stack, t.heap, t.trace)) (exec .readch (io [7] [] [.value 65])) =
      some ([], [(7, 65)], [.rdChar 65]) ∧
    after (fun t => (t.fault, t.trace, t.answers)) (exec .readch (io [] [] [.value 65])) =
      some (some .stackUnderflow, [], [.value 65]) := by decide

-- V-IO-6
theorem test_readch_silent : exec .readch (io [7] [] [.silent]) = .fault .channelNeverAnswers := rfl

-- V-IO-2, 3
theorem test_readi :
    after (fun t => (t.stack, t.heap, t.trace)) (exec .readi (io [7] [(7, 1)] [.value (-12)])) =
      some ([], [(7, -12)], [.rdInt (-12)]) ∧
    after (fun t => (t.heap, t.trace)) (exec .readi (io [-4] [] [.value 0])) = some ([], [.rdInt 0]) := by decide

-- V-IO-5
theorem test_readi_fail :
    after State.fault (exec .readi (io [7] [] [.fail])) = some (some .ioFailure) := by decide

-- V-IO-7, 12, 11
theorem test_writech :
    after (fun t => (t.stack, t.trace, t.pc)) (exec .writech (st [1, 65])) = some ([1], [.wrChar 65], 1) ∧
    after (fun t => (t.stack, t.trace)) (exec .writech (st [-1])) = some ([], [.wrChar (-1)]) ∧
    after (fun t => (t.fault, t.trace)) (exec .writech (st [])) = some (some .stackUnderflow, []) := by decide

-- V-IO-9, 11
theorem test_writei :
    after (fun t => (t.stack, t.trace, t.pc)) (exec .writei (st [-17])) = some ([], [.wrInt (-17)], 1) ∧
    after (fun t => (t.fault, t.trace)) (exec .writei (st [])) = some (some .stackUnderflow, []) := by decide

/-! ### Stack family (V-STK) -/

-- V-STK-1
theorem test_push : stackAfter (.push (-3)) [] = some [-3] := by decide

-- V-STK-2, 3
theorem test_dup :
    stackAfter .dup [4, 9] = some [4, 9, 9] ∧ faultAfter .dup [] = some (some .stackUnderflow) := by decide

-- V-STK-4, 5
theorem test_swap :
    stackAfter .swap [1, 2] = some [2, 1] ∧ faultAfter .swap [1] = some (some .stackUnderflow) := by decide

-- V-STK-6
theorem test_pop :
    stackAfter .pop [1, 2] = some [1] ∧ faultAfter .pop [] = some (some .stackUnderflow) := by decide

-- V-STK-9, 10
theorem test_copy :
    stackAfter (.copy 2) [10, 20, 30] = some [10, 20, 30, 10] ∧
      stackAfter (.copy 0) [10, 20, 30] = some [10, 20, 30, 30] := by decide

-- V-STK-7, 8, 11, 12
theorem test_copy_faults :
    [faultAfter (.copy 3) [10, 20, 30], faultAfter (.copy 4) [10, 20, 30], faultAfter (.copy 0) [],
      faultAfter (.copy (-1)) [10, 20, 30]] = List.replicate 4 (some (some .copyOutOfRange)) := by decide

-- V-STK-13, 16, 17, 18
theorem test_drop :
    stackAfter (.drop 2) [10, 20, 30, 40] = some [10, 40] ∧ stackAfter (.drop 3) [10, 20, 30, 40] = some [40] ∧
      stackAfter (.drop 0) [10, 20, 30, 40] = some [10, 20, 30, 40] ∧ stackAfter (.drop 0) [7] = some [7] := by decide

-- V-STK-14, 15, 19
theorem test_drop_faults :
    [faultAfter (.drop 4) [10, 20, 30, 40], faultAfter (.drop 0) [], faultAfter (.drop (-1)) [1, 2]] =
      List.replicate 3 (some (some .dropOutOfRange)) := by decide

/-! ### Arithmetic family (V-ARI) -/

-- V-ARI-3, 23, 20, 24
theorem test_add_sub_mul :
    stackAfter .add [-7, 2] = some [-5] ∧ stackAfter .sub [10, 3] = some [7] ∧ stackAfter .sub [-7, 2] = some [-9] ∧
      stackAfter .mul [9, 2, 3] = some [9, 6] ∧ stackAfter .mul [4611686018427387904, 4] = some [18446744073709551616] := by
  decide

-- V-ARI-20, 21
theorem test_arith_underflow :
    [faultAfter .add [5], faultAfter .sub [5], faultAfter .mul [5], faultAfter .div [5], faultAfter .mod [5],
      faultAfter .add []] = List.replicate 6 (some (some .stackUnderflow)) := by decide

-- V-ARI-1, 3, 4, 5, 11, 13, 22
theorem test_div :
    stackAfter .div [10, 3] = some [3] ∧ stackAfter .div [-7, 2] = some [-3] ∧ stackAfter .div [7, -2] = some [-3] ∧
      stackAfter .div [-7, -2] = some [3] ∧ stackAfter .div [-1, 2] = some [0] ∧
      faultAfter .div [5, 0] = some (some .divideByZero) ∧ faultAfter .div [0] = some (some .stackUnderflow) := by decide

-- V-ARI-1, 3, 4, 5, 11, 13, 22 and the floored column
theorem test_mod :
    stackAfter .mod [10, 3] = some [1] ∧ stackAfter .mod [-7, 2] = some [-1] ∧ stackAfter .mod [7, -2] = some [1] ∧
      stackAfter .mod [-7, -2] = some [-1] ∧ stackAfter .mod [-1, 2] = some [-1] ∧
      faultAfter .mod [5, 0] = some (some .divideByZero) ∧ faultAfter .mod [0] = some (some .stackUnderflow) ∧
      modWith .floored (-7) 2 = 1 ∧ modWith .floored 7 (-2) = -1 := by decide

/-! ### Control family (V-CTL) -/

-- V-CTL-1
theorem test_label : after id (step (at_ progQ 0 [] [])) = some (at_ progQ 1 [] []) := by decide

-- V-CTL-2, 6
theorem test_call :
    after id (step (at_ progQ 4 [] [])) = some (at_ progQ 2 [] [5]) ∧
      after State.fault (step (at_ [.call 9, .exit] 0 [] [])) = some (some .unresolvedLabel) := by decide

-- V-CTL-5, V-SEQ-7, 8, V-FLT-5
theorem test_jmp :
    after id (step (at_ progQ 5 [] [])) = some (at_ progQ 0 [] []) ∧
      after State.pc (step (at_ [.label 5, .label 5, .jmp 5] 2 [] [])) = some 0 ∧
      after State.pc (step (at_ [.jmp 1, .label 1, .exit] 0 [] [])) = some 1 ∧
      after State.fault (step (at_ [.jmp 0] 0 [] [])) = some (some .unresolvedLabel) := by decide

-- V-CTL-7, 8, 9
theorem test_jmpzero :
    after id (step (at_ progQ 6 [0] [])) = some (at_ progQ 2 [] []) ∧ after id (step (at_ progQ 6 [5] [])) = some (at_ progQ 7 [] []) ∧
      after id (step (at_ progQ 6 [-5] [])) = some (at_ progQ 7 [] []) := by decide

-- V-CTL-13, 14, 15
theorem test_jmpzero_faults :
    after State.fault (step (at_ progQ 6 [] [])) = some (some .stackUnderflow) ∧
      after id (step (at_ [.push 1, .jmpzero 9, .exit] 1 [1] [])) = some (at_ [.push 1, .jmpzero 9, .exit] 2 [] []) ∧
      after State.fault (step (at_ [.push 0, .jmpzero 9, .exit] 1 [0] [])) = some (some .unresolvedLabel) := by decide

-- V-CTL-10, 11, 12
theorem test_jmpneg :
    after id (step (at_ progQ 7 [-1] [])) = some (at_ progQ 2 [] []) ∧ after id (step (at_ progQ 7 [0] [])) = some (at_ progQ 8 [] []) ∧
      after id (step (at_ progQ 7 [3] [])) = some (at_ progQ 8 [] []) := by decide

-- V-CTL-3, 4
theorem test_ret :
    after id (step (at_ progQ 3 [] [5])) = some (at_ progQ 5 [] []) ∧
      after State.fault (step (at_ progQ 3 [] [])) = some (some .callStackEmpty) := by decide

-- V-CTL-16, V-SEQ-4 (the pc is not looked at)
theorem test_exit :
    after (fun t => (t.terminated, t.fault)) (step (at_ [.exit] 0 [2] [1])) = some (true, none) ∧
      after (fun t => (t.stack, t.heap, t.calls)) (step (at_ [.exit] 0 [2] [1])) = some ([2], [], [1]) := by decide

/-! ### Heap family (V-HEAP) -/

-- V-HEAP-1, 4, 5, 6, 9
theorem test_store :
    after (fun t => (t.stack, t.heap)) (exec .store (io [5, 42] [] [])) = some ([], [(5, 42)]) ∧
      after State.heap (exec .store (io [-3, 42] [(5, 1)] [])) = some [(-3, 42), (5, 1)] ∧
      after State.heap (exec .store (io [5, 0] [(5, 42)] [])) = some [] ∧
      after State.heap (exec .store (io [5, 1] [(5, 42)] [])) = some [(5, 1)] ∧
      after State.heap (exec .store (io [42, 5] [] [])) = some [(42, 5)] ∧
      faultAfter .store [42] = some (some .stackUnderflow) := by decide

-- V-HEAP-2, 3, 8
theorem test_load :
    after (fun t => (t.stack, t.heap)) (exec .load (io [5] [(5, 42)] [])) = some ([42], [(5, 42)]) ∧
      after State.stack (exec .load (io [99] [(5, 42)] [])) = some [0] ∧
      faultAfter .load [] = some (some .stackUnderflow) := by decide

/-! ### Sequencer and faults (V-SEQ, V-FLT) -/

-- V-SEQ-1, 2, 3, V-FLT-7
theorem test_fetch :
    after id (step (at_ [.push 1, .exit] 0 [] [])) = some (at_ [.push 1, .exit] 1 [1] []) ∧
      after State.fault (step (at_ [.push 1] 1 [1] [])) = some (some .pcOutOfRange) ∧
      after State.fault (step (at_ [] 0 [] [])) = some (some .pcOutOfRange) := by decide

-- V-SEQ-5, 6
theorem test_no_step :
    step ((at_ progQ 0 [] []).setTerminated true) = .refused .stepAfterTermination ∧
      step ((at_ progQ 0 [] []).setFault (some .divideByZero)) = .refused (.stepAfterFault .divideByZero) := ⟨rfl, rfl⟩

-- V-FLT-9
theorem test_resource_limit :
    after State.stack (pushWithin ⟨none, some 1, none, none⟩ 0 (st []) advance) = some [0] ∧
      after State.fault (pushWithin ⟨none, some 1, none, none⟩ 0 (st [0]) advance) = some (some .resourceLimit) := by
  decide

-- R117 on V-SEQ-7
theorem test_label_index :
    labelIndex [.label 5, .label 5, .jmp 5] = [(5, 0), (5, 1)] ∧
      lookupLabel (labelIndex [.label 5, .label 5, .jmp 5]) 5 = some 0 := by decide

-- R230
theorem test_reset : Enabled State.reset ∧ Memory.wf State.reset.heap ∧ State.reset.heap.read (-3) = 0 := by decide

/-! ### Witnesses: for each obligation with hypotheses, values that meet them, clause by clause -/

theorem witness_ReadchStoresChannelCharacter :
    ((io [7] [] [.value 65]).stack = [] ++ [7] ∧ (takeAnswer (io [7] [] [.value 65])).1 = .value 65) ∧
      (st []).stack = [] ∧ (∃ t, exec .readch (st []) = .next t) ∧
      ((io [7] [] [.fail]).stack ≠ [] ∧ (takeAnswer (io [7] [] [.fail])).1 = .fail) ∧
      ((io [7] [] [.silent]).stack ≠ [] ∧ (takeAnswer (io [7] [] [.silent])).1 = .silent) :=
  ⟨⟨rfl, rfl⟩, rfl, ⟨_, rfl⟩, ⟨by decide, rfl⟩, ⟨by decide, rfl⟩⟩

theorem witness_ReadiStoresChannelInteger :
    ((io [-4] [(-4, 1)] [.value 0]).stack = [] ++ [-4] ∧ (takeAnswer (io [-4] [(-4, 1)] [.value 0])).1 = .value 0) ∧
      (st []).stack = [] ∧ (∃ t, exec .readi (st []) = .next t) ∧
      ((io [7] [] [.fail]).stack ≠ [] ∧ (takeAnswer (io [7] [] [.fail])).1 = .fail) ∧
      ((io [7] [] [.silent]).stack ≠ [] ∧ (takeAnswer (io [7] [] [.silent])).1 = .silent) :=
  ⟨⟨rfl, rfl⟩, rfl, ⟨_, rfl⟩, ⟨by decide, rfl⟩, ⟨by decide, rfl⟩⟩

theorem witness_WritechEmitsPoppedValue : (st [-1]).stack = [] ++ [-1] ∧ (st []).stack = [] := by decide

theorem witness_WriteiEmitsPoppedValue : (st [-17]).stack = [] ++ [-17] ∧ (st []).stack = [] := by decide

theorem witness_DupDuplicatesTop :
    (st [7]).stack = [] ++ [7] ∧ (st [7]).stack ≠ [] ∧ (st []).stack = [] := by decide

theorem witness_SwapExchangesTopTwo :
    (st [1, 2]).stack = [] ++ [1, 2] ∧ (st [1]).stack.length < 2 ∧ (st []).stack.length < 2 := by decide

theorem witness_PopDiscardsTop : (st [7]).stack = [] ++ [7] ∧ (st []).stack = [] := by decide

/-- Depths 0 and `len - 1`; `n = len`, also on the empty stack; `n = -1`. -/
theorem witness_CopyPushesElementAtDepth :
    (st [10, 20, 30]).stack = [10, 20] ++ 30 :: [] ∧ (st [10, 20, 30]).stack = [] ++ 10 :: [20, 30] ∧
      ((st [10, 20, 30]).stack.length : Int) ≤ 3 ∧ ((st []).stack.length : Int) ≤ 0 ∧ (-1 : Int) < 0 := by decide

/-- Counts 0 and `len - 1`; `n + 1 = len + 1`, also on the empty stack; `n = -1`. -/
theorem witness_DropSlidesUnderTop :
    (st [10, 20, 30]).stack = [10, 20] ++ [] ++ [30] ∧ (st [10, 20, 30]).stack = [] ++ [10, 20] ++ [30] ∧
      ((st [10, 20, 30]).stack.length : Int) < 3 + 1 ∧ ((st []).stack.length : Int) < 0 + 1 ∧ (-1 : Int) < 0 := by
  decide

theorem witness_AddLeavesExactSum : (st [5, 0]).stack = [] ++ [5, 0] ∧ (st [5]).stack.length < 2 := by decide

theorem witness_SubLeavesExactDifference :
    (st [10, 3]).stack = [] ++ [10, 3] ∧ (st [5]).stack.length < 2 := by decide

theorem witness_MulLeavesExactProduct :
    (st [9, 2, 3]).stack = [9] ++ [2, 3] ∧ (st [5]).stack.length < 2 := by decide

/-- The divisors next to zero, zero itself, and one element that is a zero. -/
theorem witness_DivTruncatesTowardZero :
    ((st [7, -1]).stack = [] ++ [7, -1] ∧ (-1 : Int) ≠ 0) ∧ ((st [-7, 1]).stack = [] ++ [-7, 1] ∧ (1 : Int) ≠ 0) ∧
      (st [0, 0]).stack = [] ++ [0, 0] ∧ (st [0]).stack.length < 2 := by decide

theorem witness_ModLeavesTruncatedRemainder :
    ((st [7, -2]).stack = [] ++ [7, -2] ∧ (-2 : Int) ≠ 0) ∧ ((st [7, 1]).stack = [] ++ [7, 1] ∧ (1 : Int) ≠ 0) ∧
      (st [5, 0]).stack = [] ++ [5, 0] ∧ (st [0]).stack.length < 2 := by decide

/-- A positive and a negative remainder; operands both positive, both negative, and of mixed sign with
remainder 0. -/
theorem witness_QuotientAndRemainderLaws :
    ((-2 : Int) ≠ 0 ∧ 0 < tmod 7 (-2)) ∧ tmod (-7) 2 < 0 ∧ ((0 : Int) ≤ 0 ∧ (0 : Int) < 1) ∧
      ((-7 : Int) ≤ 0 ∧ (-1 : Int) < 0) ∧ tmod (-6) 3 = 0 := by decide

theorem witness_CallSavesReturnIndex :
    findLabel (at_ progQ 4 [] []).program 7 = some 2 ∧ findLabel (at_ progQ 4 [] []).program 0 = some 0 ∧
      Instr.label 9 ∉ (at_ [.call 9, .exit] 0 [] []).program := by decide

theorem witness_JmpGoesToLabel :
    findLabel (at_ [.jmp 1, .label 1] 0 [] []).program 1 = some 1 ∧
      Instr.label 0 ∉ (at_ [.jmp 0] 0 [] []).program := by decide

theorem witness_JmpzeroBranchesOnZero :
    ((at_ progQ 6 [0] []).stack = [] ++ [0] ∧ findLabel (at_ progQ 6 [0] []).program 7 = some 2) ∧
      ((at_ progQ 6 [1] []).stack = [] ++ [1] ∧ (1 : Int) ≠ 0) ∧
      ((at_ progQ 6 [-1] []).stack = [] ++ [-1] ∧ (-1 : Int) ≠ 0) ∧
      ((at_ progQ 6 [0] []).stack = [] ++ [0] ∧ Instr.label 9 ∉ (at_ progQ 6 [0] []).program) ∧
      (at_ progQ 6 [] []).stack = [] := by decide

theorem witness_JmpnegBranchesOnNegative :
    ((at_ progQ 7 [-1] []).stack = [] ++ [-1] ∧ (-1 : Int) < 0 ∧ findLabel (at_ progQ 7 [-1] []).program 7 = some 2) ∧
      ((at_ progQ 7 [0] []).stack = [] ++ [0] ∧ (0 : Int) ≤ 0) ∧
      ((at_ progQ 7 [-1] []).stack = [] ++ [-1] ∧ (-1 : Int) < 0 ∧
        Instr.label 9 ∉ (at_ progQ 7 [-1] []).program) ∧
      (at_ progQ 7 [] []).stack = [] := by decide

theorem witness_RetRestoresSavedIndex :
    (at_ progQ 3 [] [5]).calls = [] ++ [5] ∧ (at_ progQ 3 [] []).calls = [] := by decide

theorem witness_ExitAloneSetsTerminated :
    Instr.push 1 ≠ .exit ∧ ∃ t, exec (.push 1) (st []) = .next t := ⟨by decide, _, rfl⟩

theorem witness_StoreWritesOneCell :
    (st [-3, 0]).stack = [] ++ [-3, 0] ∧ (st [42]).stack.length < 2 := by decide

theorem witness_LoadPushesCell :
    (st [99]).stack = [] ++ [99] ∧ (∀ v, (99, v) ∉ ([(5, 42)] : Memory)) ∧ (st []).stack = [] :=
  ⟨rfl, by simp, rfl⟩

theorem witness_HeapReadsBackLastWrite : (6 : Int) ≠ 5 := by decide

theorem witness_CanonicalHeapsAreEqualData :
    Memory.wf (Memory.write (Memory.write [] 5 42) (-3) 1) ∧ Memory.wf (Memory.write (Memory.write [] (-3) 1) 5 42) ∧
      ∀ a, (Memory.write (Memory.write [] 5 42) (-3) 1).read a = (Memory.write (Memory.write [] (-3) 1) 5 42).read a :=
  ⟨by decide, by decide, fun _ => rfl⟩

theorem witness_StackAndArithmeticFrame :
    ∀ i ∈ [Instr.push 1, .dup, .swap, .pop, .copy 1, .drop 1, .add, .sub, .mul, .div, .mod, .load],
      i.op ∈ [Operation.push, .dup, .swap, .pop, .copy, .drop, .add, .sub, .mul, .div, .mod, .load] ∧
        ∃ t, Completes (exec i (st [7, 2])) t := by
  simp only [List.forall_mem_cons]
  repeat' apply And.intro
  all_goals first | decide | exact ⟨_, rfl, rfl⟩ | simp

theorem witness_ControlFrame :
    ∀ i ∈ [Instr.label 1, .call 7, .jmp 0, .jmpzero 7, .jmpneg 7, .ret],
      i.op ∈ [Operation.label, .call, .jmp, .jmpzero, .jmpneg, .ret] ∧
        (∃ t, Completes (exec i (at_ progQ 0 [0] [5])) t) := by
  simp only [List.forall_mem_cons]
  repeat' apply And.intro
  all_goals first | decide | exact ⟨_, rfl, rfl⟩ | simp

theorem witness_StoreAndIoFrame :
    (∀ i ∈ [Instr.store, .readch, .readi, .writech, .writei],
      i.op ∈ [Operation.store, .readch, .readi, .writech, .writei] ∧
        ∃ t, Completes (exec i (io [5, 42] [] [.value 3])) t) ∧
    ((st [5, 42]).stack.dropLast.getLast? = some 5 ∧ (6 : Int) ≠ 5) ∧
    ((st [5, 42]).stack.getLast? = some 42 ∧ (5 : Int) ≠ 42) := by
  refine ⟨?_, by decide, by decide⟩
  simp only [List.forall_mem_cons]
  repeat' apply And.intro
  all_goals first | decide | exact ⟨_, rfl, rfl⟩ | simp

theorem witness_OnlyListedFaultsAreRaised :
    (st [5, 0]).fault = none ∧ ∃ t, exec .div (st [5, 0]) = .next t ∧ t.fault = some .divideByZero :=
  ⟨rfl, _, rfl, rfl⟩

theorem witness_ProgramIsImmutable :
    (∃ t, exec .ret (st []) = .next t) ∧ ∃ t, step (at_ progQ 0 [] []) = .next t := ⟨⟨_, rfl⟩, ⟨_, rfl⟩⟩

theorem witness_PcAfterInstruction :
    (∃ t, Completes (exec (.call 7) (at_ progQ 4 [] [])) t) ∧ (∃ t, Completes (exec (.jmp 0) (at_ progQ 5 [] [])) t) ∧
      (∃ t, Completes (exec .ret (at_ progQ 3 [] [5])) t) ∧
      (∃ t, Completes (exec (.jmpzero 7) (at_ progQ 6 [0] [])) t) ∧
      (∃ t, Completes (exec (.jmpzero 7) (at_ progQ 6 [1] [])) t) ∧
      (∃ t, Completes (exec (.jmpneg 7) (at_ progQ 7 [-1] [])) t) ∧
      (∃ t, Completes (exec (.jmpneg 7) (at_ progQ 7 [0] [])) t) ∧
      (∃ t, Completes (exec .exit (at_ progQ 8 [] [])) t) ∧ ∃ t, Completes (exec (.push 1) (at_ progQ 1 [] [])) t :=
  ⟨⟨_, rfl, rfl⟩, ⟨_, rfl, rfl⟩, ⟨_, rfl, rfl⟩, ⟨_, rfl, rfl⟩, ⟨_, rfl, rfl⟩, ⟨_, rfl, rfl⟩, ⟨_, rfl, rfl⟩,
    ⟨_, rfl, rfl⟩, ⟨_, rfl, rfl⟩⟩

theorem witness_TraceIsWriteOnly :
    Instr.op .load ∉ [Operation.readch, .readi, .writech, .writei] ∧ ∃ t, exec .writei (st [3]) = .next t :=
  ⟨by decide, _, rfl⟩

theorem witness_OnlyReadsDependOnAnswers : Instr.op .writech ∉ [Operation.readch, .readi] := by decide

/-- A state inside a call, at the CALL that is the last instruction, so that `len` is saved. -/
theorem witness_StepKeepsRunInvariant :
    (at_ [.label 1, .call 1] 1 [3] [2]).Inv ∧ ∃ t, step (at_ [.label 1, .call 1] 1 [3] [2]) = .next t := by
  refine ⟨⟨by decide, fun h => by simp [at_, st, State.reset, State.setStack, State.setProgram, State.setPc,
    State.setCalls] at h, fun _ => ?_, fun _ => by decide⟩, _, rfl⟩
  intro r hr
  simp only [at_, State.setCalls, List.mem_singleton] at hr
  subst hr
  decide

theorem witness_FreshEngineMeetsRunInvariant : ∃ s, construct [.exit] [] = some s := ⟨_, rfl⟩

theorem witness_EnabledStepHasSuccessor : Enabled (at_ progQ 0 [] []) := by decide

theorem witness_NoStepAfterEndOrFault :
    ((st []).setTerminated true).terminated = true ∧
      (((st []).setFault (some .ioFailure)).terminated = false ∧
        ((st []).setFault (some .ioFailure)).fault = some .ioFailure) ∧
      ∃ t, step (st []) = .next t ∧ t.fault = some .pcOutOfRange :=
  ⟨rfl, ⟨rfl, rfl⟩, _, rfl, rfl⟩

theorem witness_LabelClosedProgramResolves :
    LabelClosed (at_ [.label 0, .jmp 0] 1 [] []).program ∧ ∃ t, step (at_ [.label 0, .jmp 0] 1 [] []) = .next t := by
  refine ⟨fun n h => ?_, _, rfl⟩
  simp [at_, State.setCalls, State.setPc, State.setProgram] at h ⊢
  exact h

theorem witness_RunEndsFinalOrFaulted :
    (∃ t, run 1 (at_ [.exit] 0 [] []) = .terminated t) ∧ (∃ t, run 1 (at_ [] 0 [] []) = .faulted .pcOutOfRange t) ∧
      ∀ t, run 1 (at_ [.exit] 0 [] []) ≠ .running t :=
  ⟨⟨_, rfl⟩, ⟨_, rfl⟩, fun _ h => nomatch (show run 1 (at_ [.exit] 0 [] []) = .terminated _ from rfl).symm.trans h⟩

theorem witness_StepRunsFetchedInstruction :
    (Enabled (at_ progQ 8 [] []) ∧ (at_ progQ 8 [] []).program[(at_ progQ 8 [] []).pc]? = some .exit) ∧
      decodeTableWord 8 0x00 = some (.push 0) ∧ decodeTableWord 8 0x2A = some .exit := by decide

/-- `pc = len`, the last valid index, and an empty Program. -/
theorem witness_FetchPastEndFaults :
    (Enabled (at_ progQ 9 [] []) ∧ (at_ progQ 9 [] []).program.length ≤ (at_ progQ 9 [] []).pc) ∧
      (∃ s, construct [] [] = some s) ∧
      (Enabled (at_ progQ 8 [] []) ∧ (at_ progQ 8 [] []).pc < (at_ progQ 8 [] []).program.length) :=
  ⟨by decide, ⟨_, rfl⟩, by decide⟩

theorem witness_FirstStepRunsFirstDecoded :
    (∃ s, constructFromBytes [0x20, 0x20, 0x20, 0x09, 0x0D, 0x0A, 0x0A, 0x0A, 0x0A] [] = .ok (some s)) ∧
      decodeBinary (strip [0x20, 0x20, 0x20, 0x09, 0x0D, 0x0A, 0x0A, 0x0A, 0x0A]) 0 = .ok (5, .push 1) :=
  ⟨⟨_, rfl⟩, by decide⟩

theorem witness_FindLabelIsFirstLabel :
    (at_ [.jmp 0] 0 [] []).program = [.jmp 0] ∧ findLabel [.jmp 0] 0 = none ∧ Instr.label 0 ∉ [Instr.jmp 0] ∧
      findLabel [.label 5, .label 5, .jmp 5] 5 = some 0 := by decide

theorem witness_IntegerFieldsRoundTrip : 0 < 1 := by decide

/-- Bytes that disassemble gives back, and V-ASM-8, which it does not. -/
theorem witness_AssembleDisassembleProgram :
    (assemble [0x0A, 0x0A, 0x0A] = .ok [.exit] ∧ disassemble [.exit] = [0x0A, 0x0A, 0x0A]) ∧
      assemble [0x20, 0x20, 0x09, 0x0A] = .ok [.push 0] ∧ disassemble [.push 0] ≠ [0x20, 0x20, 0x09, 0x0A] := by decide

theorem witness_DecodeReadsItsOwnSymbols : decodeBinary (sym "CCCACAB") 3 = .ok (3, .dup) := by decide

theorem witness_IllegalCodesRefusedAndCover : sym "ABB" ∈ illegalCodes ∧ sym "BCBC" ∈ illegalCodes := by decide

/-- Before the error stands `AAAABC`, whose operand has a leading `A` (V-DEC-2). -/
theorem witness_AssembleGivesFirstError :
    assemble [0x20, 0x20, 0x20, 0x20, 0x09, 0x0A] = .ok [.push 1] ∧ assemble [0x78, 0x0A, 0x0A] = .error .unrecognizedPrefix ∧
    strip [0x78, 0x0A, 0x0A] ≠ [] ∧ decodeBinary (strip [0x78, 0x0A, 0x0A]) 0 = .error .unrecognizedPrefix := by decide

theorem witness_CommentsChangeNothing :
    byteSymbol 0x0D = none ∧ byteSymbol 0x0B = none ∧ (0x0A : Byte) ∈ disassemble [.exit] := by decide

/-- An unknown first token, the empty one included; two separators; the operand 0, the empty token; the label number -1; a sign without digits. -/
theorem witness_TextDecoderRefusals :
    (' ' ∉ "foo".toList ∧ ' ' ∉ "1".toList ∧ ∀ op, mnemonic op ≠ "foo".toList.map foldCase) ∧
      (' ' ∉ "".toList ∧ ' ' ∉ "dup".toList ∧ ∀ op, mnemonic op ≠ "".toList.map foldCase) ∧
    2 ≤ "push  1".toList.count ' ' ∧ Operation.kind .label ≠ .none ∧
      (Operation.kind .dup = .none ∧ ' ' ∉ "0".toList ∧ ' ' ∉ "".toList) ∧
      (Operation.kind .label = .uint ∧ 0 < 1) ∧
      (Operation.kind .push ≠ .none ∧ ' ' ∉ "-".toList ∧ decodeDecimal "-".toList = none) ∧
      decodeDecimal "".toList = none :=
  ⟨⟨by decide, by decide, fun op => by cases op <;> decide⟩, ⟨by decide, by decide, fun op => by cases op <;> decide⟩,
    by decide⟩

theorem witness_IllFormedPairsAreRefused :
    (RawInstr.mk .exit 1).wellFormed = false ∧ (RawInstr.mk .label (-1)).wellFormed = false := by decide

/-- `INT_BITS` 8: 127 and -128 are inside, 128 and -129 are not; `STACK_CAP` 1: the first push is inside, the
second is not; `CALL_CAP` 1 and 0; `INT_BITS` 2: -2 is inside, 2 is not. -/
theorem witness_FiniteLimitsFaultNeverWrap :
    (Limits.admitsValue ⟨some 8, none, none, none⟩ 127 = true ∧ Limits.admitsValue ⟨some 8, none, none, none⟩ (-128) = true) ∧
      (Limits.admitsValue ⟨some 8, none, none, none⟩ 128 = false ∧ Limits.admitsValue ⟨some 8, none, none, none⟩ (-129) = false) ∧
      (∃ c, (Limits.mk none (some 1) none none).stackCap = some c ∧ c < (st [0]).stack.length + 1) ∧
      (∀ c, (Limits.mk none (some 1) none none).stackCap = some c → (st []).stack.length + 1 ≤ c) ∧
      (∃ c, (Limits.mk none none (some 0) none).callCap = some c ∧ c < (st [0]).calls.length + 1) ∧
      (∀ c, (Limits.mk none none (some 1) none).callCap = some c → (st []).calls.length + 1 ≤ c) ∧
      (Limits.mk none none none (some 1)).progMax = some 1 ∧
      decodeBinary (sym "AAC") 0 = .error .invalidSign ∧
      (decodeBinary (sym "AABBAC") 0 = .ok (6, .push (-2)) ∧
        Limits.admitsValue ⟨some 2, none, none, none⟩ (Instr.operand (.push (-2))) = true) ∧
      decodeBinaryWithin ⟨some 2, none, none, none⟩ (sym "AABBAC") 0 = .ok (6, .push (-2)) ∧
      (decodeBinary (sym "AAABAC") 0 = .ok (6, .push 2) ∧
        Limits.admitsValue ⟨some 2, none, none, none⟩ (Instr.operand (.push 2)) = false) :=
  ⟨by decide, by decide, ⟨1, rfl, by decide⟩, fun c h => by cases h; decide, ⟨0, rfl, by decide⟩,
    fun c h => by cases h; decide, rfl, by decide, by decide, by decide, by decide⟩

end Sys2Proof.Tests
end

/-! Bytes and symbols (R50, R63, R91): how `strip` treats a comment byte, and which bytes `disassemble` emits. -/

namespace Sys2Proof

@[simp] theorem byteSymbol_symbolByte (s : Symbol) : byteSymbol (Config.symbolByte s) = some s := by
  cases s <;> decide

@[simp] theorem strip_append (xs ys : List Byte) : strip (xs ++ ys) = strip xs ++ strip ys :=
  List.filterMap_append

theorem strip_cons_of_comment {b : Byte} (h : byteSymbol b = none) (ys : List Byte) :
    strip (b :: ys) = strip ys :=
  List.filterMap_cons_none h

theorem strip_insert_comment {b : Byte} (h : byteSymbol b = none) (xs ys : List Byte) :
    strip (xs ++ b :: ys) = strip (xs ++ ys) := by
  rw [strip_append, strip_append, strip_cons_of_comment h]

theorem assemble_congr_strip {xs ys : List Byte} (h : strip xs = strip ys) : assemble xs = assemble ys :=
  congrArg assembleSymbols h

theorem byteSymbol_ne_none_of_mem_disassemble {P : Program} {b : Byte} (hb : b ∈ disassemble P) :
    byteSymbol b ≠ none := by
  obtain ⟨s, _, rfl⟩ := List.mem_map.mp hb
  simp

/-- Settles O56: a comment byte leaves `strip` as it was, and `assemble` sees only that; every byte that
`disassemble` emits is the byte of a symbol. -/
theorem commentsChangeNothing : Obligations.CommentsChangeNothing :=
  ⟨fun xs _ ys h => assemble_congr_strip (strip_insert_comment h xs ys),
    fun _ _ hb => byteSymbol_ne_none_of_mem_disassemble hb⟩

end Sys2Proof

/-! ### Integer fields (R58 to R60, R81 to R84) -/

namespace Sys2Proof

open Machine

/-- The value of digit symbols read on from `v`, most significant first (R58). -/
def digitsFrom (v : Nat) (ds : List Symbol) : Nat := ds.foldl (fun v s => v * 2 + s.bit) v

@[simp] theorem digitsFrom_nil (v : Nat) : digitsFrom v [] = v := rfl

@[simp] theorem digitsFrom_cons (v : Nat) (s : Symbol) (ds : List Symbol) :
    digitsFrom v (s :: ds) = digitsFrom (v * 2 + s.bit) ds := rfl

@[simp] theorem digitsFrom_concat (v : Nat) (ds : List Symbol) (s : Symbol) :
    digitsFrom v (ds ++ [s]) = digitsFrom v ds * 2 + s.bit := by
  simp [digitsFrom]

theorem le_digitsFrom (v : Nat) (ds : List Symbol) : v ≤ digitsFrom v ds := by
  induction ds generalizing v with
  | nil => exact le_rfl
  | cons s ds ih => exact le_trans (by omega) (ih (v * 2 + s.bit))

/-- Digits without a leading `A` are positive, unless there is none. -/
theorem digitsFrom_pos {ds : List Symbol} (hC : Symbol.C ∉ ds) (hA : ds.head? ≠ some .A) (hne : ds ≠ []) :
    0 < digitsFrom 0 ds := by
  match ds with
  | .B :: ds => exact le_digitsFrom 1 ds
  | .A :: _ => simp at hA
  | .C :: _ => simp at hC

theorem decodeDigits_of_terminated {ds : List Symbol} (hC : Symbol.C ∉ ds) (rest : List Symbol) (k v : Nat) :
    decodeDigits (ds ++ .C :: rest) k v = .ok (k + (ds.length + 1), digitsFrom v ds) := by
  induction ds generalizing k v with
  | nil => rfl
  | cons s ds ih =>
    have hds : Symbol.C ∉ ds := fun h => hC (.tail s h)
    cases s with
    | A => simp [decodeDigits, ih hds]; omega
    | B => simp [decodeDigits, ih hds]; omega
    | C => simp at hC

theorem exists_terminated_of_decodeDigits {buf : List Symbol} {k v : Nat} {r : Nat × Nat}
    (h : decodeDigits buf k v = .ok r) : ∃ ds rest, buf = ds ++ .C :: rest ∧ Symbol.C ∉ ds := by
  induction buf generalizing k v with
  | nil => simp [decodeDigits] at h
  | cons s buf ih =>
    cases s with
    | C => exact ⟨[], buf, rfl, by simp⟩
    | A =>
      obtain ⟨ds, rest, rfl, hC⟩ := ih h
      exact ⟨.A :: ds, rest, rfl, by simpa using hC⟩
    | B =>
      obtain ⟨ds, rest, rfl, hC⟩ := ih h
      exact ⟨.B :: ds, rest, rfl, by simpa using hC⟩

/-- R82: an unsigned field is digits up to the first `C`. -/
theorem decodeUInt_ok_iff {buf : List Symbol} {o k m : Nat} :
    decodeUInt buf o = .ok (k, m) ↔
      ∃ ds rest, buf.drop o = ds ++ .C :: rest ∧ Symbol.C ∉ ds ∧ k = ds.length + 1 ∧ m = digitsFrom 0 ds := by
  unfold decodeUInt
  constructor
  · intro h
    obtain ⟨ds, rest, hbuf, hC⟩ := exists_terminated_of_decodeDigits h
    rw [hbuf, decodeDigits_of_terminated hC] at h
    cases h
    exact ⟨ds, rest, hbuf, hC, Nat.zero_add _, rfl⟩
  · rintro ⟨ds, rest, hbuf, hC, rfl, rfl⟩
    rw [hbuf, decodeDigits_of_terminated hC, Nat.zero_add]

theorem C_notMem_binaryDigits (fuel v : Nat) : Symbol.C ∉ binaryDigits fuel v := by
  induction fuel generalizing v with
  | zero => simp [binaryDigits]
  | succ fuel ih =>
    unfold binaryDigits
    split
    · simp
    · have hlast : Symbol.C ≠ if v % 2 = 1 then .B else .A := by split <;> decide
      simpa [ih] using hlast

theorem digitsFrom_binaryDigits {fuel v : Nat} (h : v ≤ fuel) : digitsFrom 0 (binaryDigits fuel v) = v := by
  induction fuel generalizing v with
  | zero => simp [binaryDigits]; omega
  | succ fuel ih =>
    unfold binaryDigits
    split
    · simp [*]
    · rw [digitsFrom_concat, ih (by omega)]
      split <;> simp only [Symbol.bit] <;> omega

theorem head?_binaryDigits_ne_A {fuel v : Nat} (h : v ≤ fuel) : (binaryDigits fuel v).head? ≠ some .A := by
  induction fuel generalizing v with
  | zero => simp [binaryDigits]
  | succ fuel ih =>
    unfold binaryDigits
    split
    · simp
    · next hv =>
      have hhalf : v / 2 ≤ fuel := by omega
      cases hds : binaryDigits fuel (v / 2) with
      | cons s ds => simpa [hds] using ih hhalf
      | nil =>
        have hval := digitsFrom_binaryDigits hhalf
        rw [hds, digitsFrom_nil] at hval
        have hone : v % 2 = 1 := by omega
        simp [hone]

/-- Digits without a leading `A` are what `binaryDigits` gives for their value. -/
theorem binaryDigits_digitsFrom {ds : List Symbol} (hC : Symbol.C ∉ ds) (hA : ds.head? ≠ some .A) {fuel : Nat}
    (h : digitsFrom 0 ds ≤ fuel) : binaryDigits fuel (digitsFrom 0 ds) = ds := by
  induction ds using List.reverseRecOn generalizing fuel with
  | nil => cases fuel <;> simp [binaryDigits]
  | append_singleton ds s ih =>
    have hpos := digitsFrom_pos hC hA (by simp)
    rw [digitsFrom_concat] at h hpos ⊢
    obtain ⟨hCds, hCs⟩ : Symbol.C ∉ ds ∧ Symbol.C ≠ s := by simpa using hC
    have hAds : ds.head? ≠ some .A := by
      cases ds with
      | nil => simp
      | cons d ds => simpa using hA
    obtain ⟨fuel, rfl⟩ : ∃ f, fuel = f + 1 := ⟨fuel - 1, by omega⟩
    have hbit : s.bit < 2 := by cases s <;> decide
    have hhalf : (digitsFrom 0 ds * 2 + s.bit) / 2 = digitsFrom 0 ds := by omega
    have hmod : (digitsFrom 0 ds * 2 + s.bit) % 2 = s.bit := by omega
    rw [binaryDigits, if_neg hpos.ne', hhalf, hmod, ih hCds hAds (by omega)]
    cases s with
    | A => rfl
    | B => rfl
    | C => exact absurd rfl hCs

/-- R60, R81: of the fields of one value, `encodeUInt` emits the one without a leading `A`. -/
theorem eq_encodeUInt_iff {ds : List Symbol} (hC : Symbol.C ∉ ds) :
    ds ++ [.C] = encodeUInt (digitsFrom 0 ds) ↔ ds.head? ≠ some .A := by
  unfold encodeUInt
  rw [List.append_cancel_right_eq]
  exact ⟨fun h => h ▸ head?_binaryDigits_ne_A le_rfl, fun hA => (binaryDigits_digitsFrom hC hA le_rfl).symm⟩

theorem canonicalUInt_iff (ds : List Symbol) : canonicalUInt (ds ++ [.C]) = true ↔ ds.head? ≠ some .A := by
  match ds with
  | [] => simp [canonicalUInt]
  | .A :: _ => simp [canonicalUInt]
  | .B :: _ => simp [canonicalUInt]
  | .C :: _ => simp [canonicalUInt]

/-! ### The operand field of an instruction (R53, R55, R86) -/

/-- `OperandField kind n field`: the symbols `field` are an operand field of format N, S or U (R55) whose
value is `n`, in canonical form or not. -/
inductive OperandField : OperandKind → Int → List Symbol → Prop
  | none : OperandField .none 0 []
  | nonneg {ds : List Symbol} (hC : Symbol.C ∉ ds) : OperandField .sint (digitsFrom 0 ds) (.A :: (ds ++ [.C]))
  | neg {ds : List Symbol} (hC : Symbol.C ∉ ds) : OperandField .sint (-(digitsFrom 0 ds : Int)) (.B :: (ds ++ [.C]))
  | uint {ds : List Symbol} (hC : Symbol.C ∉ ds) : OperandField .uint (digitsFrom 0 ds) (ds ++ [.C])

/-- The field after a sign symbol (R84). -/
theorem decodeUInt_succ_ok_iff {buf tail : List Symbol} {o k m : Nat} {s : Symbol} (h : buf.drop o = s :: tail) :
    decodeUInt buf (o + 1) = .ok (k, m) ↔
      ∃ ds rest, tail = ds ++ .C :: rest ∧ Symbol.C ∉ ds ∧ k = ds.length + 1 ∧ m = digitsFrom 0 ds := by
  rw [decodeUInt_ok_iff, ← List.drop_drop, h, List.drop_one, List.tail_cons]

theorem decodeSInt_ok_iff {buf : List Symbol} {o k : Nat} {n : Int} :
    decodeSInt buf o = .ok (k, n) ↔
      ∃ field rest, buf.drop o = field ++ rest ∧ k = field.length ∧ OperandField .sint n field := by
  constructor
  · intro h
    unfold decodeSInt at h
    split at h
    · cases h
    · cases h
    · next tail hbuf =>
      split at h
      · cases h
      · next m hm =>
        cases h
        obtain ⟨ds, rest, rfl, hC, rfl, rfl⟩ := (decodeUInt_succ_ok_iff hbuf).mp hm
        exact ⟨_, rest, by simp [hbuf], by simp, .nonneg hC⟩
    · next tail hbuf =>
      split at h
      · cases h
      · next m hm =>
        cases h
        obtain ⟨ds, rest, rfl, hC, rfl, rfl⟩ := (decodeUInt_succ_ok_iff hbuf).mp hm
        exact ⟨_, rest, by simp [hbuf], by simp, .neg hC⟩
  · rintro ⟨field, rest, hbuf, rfl, hfield⟩
    cases hfield with
    | nonneg hC =>
      rw [List.cons_append, List.append_assoc] at hbuf
      simp [decodeSInt, hbuf, (decodeUInt_succ_ok_iff hbuf).mpr ⟨_, rest, rfl, hC, rfl, rfl⟩]
    | neg hC =>
      rw [List.cons_append, List.append_assoc] at hbuf
      simp [decodeSInt, hbuf, (decodeUInt_succ_ok_iff hbuf).mpr ⟨_, rest, rfl, hC, rfl, rfl⟩]

theorem decodeOperand_ok_iff {op : Operation} {buf : List Symbol} {o k : Nat} {n : Int} :
    decodeOperand op buf o = .ok (k, n) ↔
      ∃ field rest, buf.drop o = field ++ rest ∧ k = field.length ∧ OperandField op.kind n field := by
  unfold decodeOperand
  cases op.kind with
  | none =>
    constructor
    · intro h
      cases h
      exact ⟨[], buf.drop o, rfl, rfl, .none⟩
    · rintro ⟨_, _, _, rfl, ⟨⟩⟩
      rfl
  | sint => exact decodeSInt_ok_iff
  | uint =>
    constructor
    · intro h
      dsimp only at h
      split at h
      · cases h
      · next m hm =>
        cases h
        obtain ⟨ds, rest, hrest, hC, rfl, rfl⟩ := decodeUInt_ok_iff.mp hm
        exact ⟨ds ++ [.C], rest, by simp [hrest], by simp, .uint hC⟩
    · rintro ⟨_, rest, hbuf, rfl, ⟨⟩⟩
      next ds hC =>
      have hu := decodeUInt_ok_iff.mpr ⟨ds, rest, by simpa using hbuf, hC, rfl, rfl⟩
      simp [hu]

/-- The operand field that `encodeBinary` emits (R85). -/
def encodeOperand : OperandKind → Int → List Symbol
  | .none, _ => []
  | .sint, n => encodeSInt n
  | .uint, n => encodeUInt n.toNat

theorem encodeBinary_eq (i : Instr) : encodeBinary i = i.op.code ++ encodeOperand i.op.kind i.operand := by
  unfold encodeBinary
  cases i.op.kind with
  | none => exact (List.append_nil _).symm
  | sint => rfl
  | uint => rfl

theorem operandField_uint (v : Nat) : OperandField .uint v (encodeUInt v) := by
  have h := OperandField.uint (C_notMem_binaryDigits v v)
  rwa [digitsFrom_binaryDigits le_rfl] at h

theorem operandField_sint (v : Int) : OperandField .sint v (encodeSInt v) := by
  unfold encodeSInt
  split
  · have h := OperandField.nonneg (C_notMem_binaryDigits v.toNat v.toNat)
    rwa [digitsFrom_binaryDigits le_rfl, Int.toNat_of_nonneg ‹_›] at h
  · have h := OperandField.neg (C_notMem_binaryDigits (-v).toNat (-v).toNat)
    rwa [digitsFrom_binaryDigits le_rfl, Int.toNat_of_nonneg (by omega), neg_neg] at h

/-- The emitted field has the operand as its value, in every instruction (R51). -/
theorem operandField_encodeOperand (i : Instr) :
    OperandField i.op.kind i.operand (encodeOperand i.op.kind i.operand) := by
  cases i with
  | push v => exact operandField_sint v
  | copy n => exact operandField_sint n
  | drop n => exact operandField_sint n
  | label n => exact operandField_uint n
  | call n => exact operandField_uint n
  | jmp n => exact operandField_uint n
  | jmpzero n => exact operandField_uint n
  | jmpneg n => exact operandField_uint n
  | _ => exact .none

theorem canonicalSInt_neg_iff {ds : List Symbol} (hC : Symbol.C ∉ ds) :
    canonicalSInt (.B :: (ds ++ [.C])) = true ↔ ds.head? ≠ some .A ∧ ds ≠ [] := by
  rw [canonicalSInt, Bool.and_eq_true, canonicalUInt_iff]
  cases ds with
  | nil => simp
  | cons d ds =>
    have hd : d ≠ .C := by
      rintro rfl
      simp at hC
    simp [hd]

/-- R83: after the sign `B` the encoder emits no zero and no leading `A`. -/
theorem eq_encodeSInt_neg_iff {ds : List Symbol} (hC : Symbol.C ∉ ds) :
    .B :: (ds ++ [.C]) = encodeSInt (-(digitsFrom 0 ds : Int)) ↔ ds.head? ≠ some .A ∧ ds ≠ [] := by
  unfold encodeSInt
  split
  · next hzero =>
    refine iff_of_false (by simp) fun ⟨hA, hne⟩ => ?_
    have := digitsFrom_pos hC hA hne
    omega
  · next hneg =>
    have hne : ds ≠ [] := by
      rintro rfl
      simp at hneg
    rw [neg_neg, Int.toNat_natCast, List.cons.injEq, eq_encodeUInt_iff hC]
    simp [hne]

/-- R60: of the fields of one operand, the encoder emits the canonical one. -/
theorem canonicalField_iff {op : Operation} {n : Int} {field : List Symbol} (h : OperandField op.kind n field) :
    canonicalField op field = true ↔ field = encodeOperand op.kind n := by
  unfold canonicalField
  generalize op.kind = kind at h
  cases h with
  | none => simp [encodeOperand]
  | nonneg hC => simp [canonicalSInt, canonicalUInt_iff, encodeOperand, encodeSInt, eq_encodeUInt_iff hC]
  | neg hC => exact (canonicalSInt_neg_iff hC).trans (eq_encodeSInt_neg_iff hC).symm
  | uint hC => simp [canonicalUInt_iff, encodeOperand, eq_encodeUInt_iff hC]

end Sys2Proof

/-! ### One instruction (R54, R56, R85, R86) -/

namespace Sys2Proof

open Machine

theorem Operation.mem_all (op : Operation) : op ∈ Operation.all := by
  cases op <;> decide

/-- R56: no code starts another. -/
theorem Operation.code_prefix_free : ∀ op ∈ Operation.all, ∀ op' ∈ Operation.all,
    op.code <+: op'.code → op = op' := by
  decide

theorem matchCode_eq_some_iff {buf : List Symbol} {op : Operation} :
    matchCode buf = some op ↔ op.code <+: buf := by
  have hsome {op' : Operation} (h : matchCode buf = some op') : op'.code <+: buf :=
    by
    simpa using List.find?_some (p := fun op : Operation => op.code.isPrefixOf buf) h
  refine ⟨hsome, fun h => ?_⟩
  cases hm : matchCode buf with
  | none => exact absurd (List.isPrefixOf_iff_prefix.mpr h) (List.find?_eq_none.mp hm op op.mem_all)
  | some op' =>
    rcases List.prefix_or_prefix_of_prefix h (hsome hm) with hp | hp
    · rw [Operation.code_prefix_free _ op.mem_all _ op'.mem_all hp]
    · rw [Operation.code_prefix_free _ op'.mem_all _ op.mem_all hp]

@[simp] theorem Operation.op_withOperand (op : Operation) (n : Int) : (op.withOperand n).op = op := by
  cases op <;> rfl

@[simp] theorem Instr.withOperand_operand (i : Instr) : i.op.withOperand i.operand = i := by
  cases i <;> rfl

/-- A well-formed pair (R51) keeps its operand as an instruction. -/
theorem Operation.operand_withOperand {op : Operation} {n : Int} (h : (RawInstr.mk op n).wellFormed = true) :
    (op.withOperand n).operand = n := by
  cases op with
  | push | copy | drop => rfl
  | label | call | jmp | jmpzero | jmpneg => exact Int.toNat_of_nonneg (of_decide_eq_true h)
  | _ => exact (eq_of_beq h).symm

theorem OperandField.wellFormed {op : Operation} {n : Int} {field : List Symbol}
    (h : OperandField op.kind n field) : (RawInstr.mk op n).wellFormed = true := by
  unfold RawInstr.wellFormed
  dsimp only
  generalize op.kind = kind at h
  cases h <;> simp

theorem Instr.wellFormed (i : Instr) : (RawInstr.mk i.op i.operand).wellFormed = true :=
  (operandField_encodeOperand i).wellFormed

theorem Instr.operand_eq_zero_of_none (i : Instr) (h : i.op.kind = .none) : i.operand = 0 := by
  simpa [RawInstr.wellFormed, h] using i.wellFormed

theorem Instr.operand_nonneg_of_uint (i : Instr) (h : i.op.kind = .uint) : 0 ≤ i.operand := by
  simpa [RawInstr.wellFormed, h] using i.wellFormed

/-- `Encodes i w`: the symbols `w` are the code of `i` and an operand field with the operand of `i`, in
canonical form or not (R55). -/
def Encodes (i : Instr) (w : List Symbol) : Prop :=
  ∃ field, w = i.op.code ++ field ∧ OperandField i.op.kind i.operand field

theorem encodes_encodeBinary (i : Instr) : Encodes i (encodeBinary i) :=
  ⟨_, encodeBinary_eq i, operandField_encodeOperand i⟩

/-- R86: the decoder reads an instruction exactly where the buffer goes on with one. -/
theorem decodeBinary_ok_iff {buf : List Symbol} {o l : Nat} {i : Instr} :
    decodeBinary buf o = .ok (l, i) ↔
      ∃ w rest, buf.drop o = w ++ rest ∧ l = w.length ∧ Encodes i w := by
  unfold decodeBinary decodeBinaryWithin
  constructor
  · intro h
    split at h
    · cases h
    · next op hop =>
      split at h
      · cases h
      · next k n hk =>
        cases h
        obtain ⟨tail, htail⟩ := matchCode_eq_some_iff.mp hop
        obtain ⟨field, rest, hrest, rfl, hfield⟩ := decodeOperand_ok_iff.mp hk
        rw [← List.drop_drop, ← htail, List.drop_left] at hrest
        refine ⟨op.code ++ field, rest, by rw [← htail, hrest, List.append_assoc], by simp, field, by simp, ?_⟩
        rwa [Operation.op_withOperand, Operation.operand_withOperand hfield.wellFormed]
  · rintro ⟨_, rest, hbuf, rfl, field, rfl, hfield⟩
    rw [List.append_assoc] at hbuf
    have hop : matchCode (buf.drop o) = some i.op := matchCode_eq_some_iff.mpr ⟨_, hbuf.symm⟩
    have hn : decodeOperand i.op buf (o + i.op.code.length) = .ok (field.length, i.operand) :=
      decodeOperand_ok_iff.mpr ⟨field, rest, by rw [← List.drop_drop, hbuf, List.drop_left], rfl, hfield⟩
    simp [hop, hn]

theorem Encodes.decodeBinary {i : Instr} {w : List Symbol} (h : Encodes i w) (rest : List Symbol) :
    decodeBinary (w ++ rest) 0 = .ok (w.length, i) :=
  decodeBinary_ok_iff.mpr ⟨w, rest, rfl, rfl, h⟩

/-- R56, R57: the symbols say by themselves where an instruction ends and which it is. -/
theorem Encodes.eq_of_append_eq {i j : Instr} {w w' y y' : List Symbol} (h : Encodes i w) (h' : Encodes j w')
    (heq : w ++ y = w' ++ y') : i = j ∧ w = w' ∧ y = y' := by
  have hdec := h.decodeBinary y
  rw [heq, h'.decodeBinary y'] at hdec
  injection hdec with hpair
  obtain ⟨hlen, rfl⟩ := Prod.mk.inj hpair
  exact ⟨rfl, List.append_inj heq hlen.symm⟩

theorem Encodes.length_pos {i : Instr} {w : List Symbol} (h : Encodes i w) : 0 < w.length := by
  obtain ⟨field, rfl, _⟩ := h
  have hcode : 0 < i.op.code.length := by cases i.op <;> decide
  simp only [List.length_append]
  omega

/-- R60: of the symbol strings of one instruction, `encodeBinary` emits the one with a canonical operand. -/
theorem Encodes.canonicalField_iff {i : Instr} {w : List Symbol} (h : Encodes i w) :
    canonicalField i.op (w.drop i.op.code.length) = true ↔ w = encodeBinary i := by
  obtain ⟨field, rfl, hfield⟩ := h
  rw [List.drop_left, Sys2Proof.canonicalField_iff hfield, encodeBinary_eq, List.append_cancel_left_eq]

/-! ### A whole program (R92 to R94) -/

/-- `EncodesProgram P buf`: `buf` is one string of each instruction of `P` after another. -/
inductive EncodesProgram : Program → List Symbol → Prop
  | nil : EncodesProgram [] []
  | cons {i : Instr} {w : List Symbol} {P : Program} {y : List Symbol} (hw : Encodes i w)
      (hy : EncodesProgram P y) : EncodesProgram (i :: P) (w ++ y)

theorem encodesProgram_nil_iff {P : Program} : EncodesProgram P [] ↔ P = [] := by
  constructor
  · intro h
    generalize hb : ([] : List Symbol) = buf at h
    cases h with
    | nil => rfl
    | cons hw _ =>
      obtain ⟨rfl, _⟩ := List.append_eq_nil_iff.mp hb.symm
      exact absurd hw.length_pos (Nat.lt_irrefl 0)
  · rintro rfl
    exact .nil

theorem assembleFrom_ok_iff_of_length_le {fuel o : Nat} {buf : List Symbol} {P : Program} (h : buf.length ≤ o) :
    assembleFrom fuel buf o = .ok P ↔ EncodesProgram P (buf.drop o) := by
  have hend : assembleFrom fuel buf o = .ok [] := by
    cases fuel with
    | zero => rfl
    | succ fuel => exact if_pos h
  rw [hend, List.drop_eq_nil_of_le h, encodesProgram_nil_iff, Except.ok.injEq, eq_comm]

theorem assembleFrom_succ_ok_iff {fuel o : Nat} {buf : List Symbol} {P : Program} (h : ¬ buf.length ≤ o) :
    assembleFrom (fuel + 1) buf o = .ok P ↔
      ∃ l i Q, decodeBinary buf o = .ok (l, i) ∧ assembleFrom fuel buf (o + l) = .ok Q ∧ P = i :: Q := by
  rw [assembleFrom, if_neg h]
  constructor
  · intro hP
    split at hP
    · cases hP
    · next l i hi =>
      split at hP
      · cases hP
      · next Q hQ =>
        cases hP
        exact ⟨l, i, Q, hi, hQ, rfl⟩
  · rintro ⟨l, i, Q, hi, hQ, rfl⟩
    simp [hi, hQ]

/-- The loop of R92 from offset `o`, with fuel for all the symbols left. -/
theorem assembleFrom_ok_iff {fuel o : Nat} {buf : List Symbol} {P : Program} (h : buf.length ≤ o + fuel) :
    assembleFrom fuel buf o = .ok P ↔ EncodesProgram P (buf.drop o) := by
  induction fuel generalizing o P with
  | zero => exact assembleFrom_ok_iff_of_length_le h
  | succ fuel ih =>
    by_cases hlen : buf.length ≤ o
    · exact assembleFrom_ok_iff_of_length_le hlen
    rw [assembleFrom_succ_ok_iff hlen]
    constructor
    · rintro ⟨l, i, Q, hi, hQ, rfl⟩
      obtain ⟨w, rest, hrest, rfl, hw⟩ := decodeBinary_ok_iff.mp hi
      have hpos := hw.length_pos
      rw [ih (by omega), ← List.drop_drop, hrest, List.drop_left] at hQ
      rw [hrest]
      exact .cons hw hQ
    · intro hP
      generalize hb : buf.drop o = b at hP
      cases hP with
      | nil => exact absurd (List.drop_eq_nil_iff.mp hb) hlen
      | @cons i w Q y hw hy =>
        have hpos := hw.length_pos
        have hQ : assembleFrom fuel buf (o + w.length) = .ok Q := by
          rwa [ih (by omega), ← List.drop_drop, hb, List.drop_left]
        exact ⟨_, i, Q, decodeBinary_ok_iff.mpr ⟨w, y, hb, rfl, hw⟩, hQ, rfl⟩

/-- R92: `assemble` reads exactly the strings of whole instructions one after another. -/
theorem assembleSymbols_ok_iff {buf : List Symbol} {P : Program} :
    assembleSymbols buf = .ok P ↔ EncodesProgram P buf :=
  assembleFrom_ok_iff (Nat.zero_add _).ge

theorem encodesProgram_disassembleSymbols (P : Program) : EncodesProgram P (disassembleSymbols P) := by
  induction P with
  | nil => exact .nil
  | cons i P ih => exact .cons (encodes_encodeBinary i) ih

/-- R94's "every operand in it is in canonical form", over strings of instructions. -/
theorem operandsCanonical_iff {buf : List Symbol} :
    OperandsCanonical buf ↔ ∀ x Q i w y, buf = x ++ (w ++ y) → EncodesProgram Q x → Encodes i w →
      w = encodeBinary i := by
  constructor
  · rintro h x Q i w y rfl hx hw
    have hdec : decodeBinary (x ++ (w ++ y)) x.length = .ok (w.length, i) :=
      decodeBinary_ok_iff.mpr ⟨w, y, List.drop_left, rfl, hw⟩
    have hcan := h x (w ++ y) Q _ i rfl (assembleSymbols_ok_iff.mpr hx) hdec
    rwa [List.take_left, hw.canonicalField_iff] at hcan
  · rintro h x y Q l i rfl hx hdec
    obtain ⟨w, rest, hy, rfl, hw⟩ := decodeBinary_ok_iff.mp hdec
    rw [List.drop_left] at hy
    subst hy
    rw [List.take_left, hw.canonicalField_iff]
    exact h x Q i w rest rfl (assembleSymbols_ok_iff.mp hx) hw

theorem operandsCanonical_nil : OperandsCanonical [] := by
  rw [operandsCanonical_iff]
  intro x Q i w y hnil _ hw
  obtain ⟨_, rfl, _⟩ : x = [] ∧ w = [] ∧ y = [] := by simpa using hnil
  exact absurd hw.length_pos (Nat.lt_irrefl 0)

/-- The first instruction of a buffer is judged apart from the rest. -/
theorem operandsCanonical_append_iff {i : Instr} {w y : List Symbol} (hw : Encodes i w) :
    OperandsCanonical (w ++ y) ↔ w = encodeBinary i ∧ OperandsCanonical y := by
  simp only [operandsCanonical_iff]
  constructor
  · intro h
    refine ⟨h [] [] i w y rfl .nil hw, ?_⟩
    rintro x Q j v z rfl hx hv
    exact h (w ++ x) (i :: Q) j v z (by simp) (.cons hw hx) hv
  · rintro ⟨hcan, hy⟩ x Q j v z heq hx hv
    cases hx with
    | nil =>
      obtain ⟨rfl, rfl, _⟩ := hw.eq_of_append_eq hv heq
      exact hcan
    | cons hw' hx' =>
      rw [List.append_assoc] at heq
      obtain ⟨_, _, rfl⟩ := hw.eq_of_append_eq hw' heq
      exact hy _ _ j v z rfl hx' hv

/-- R94: canonical operands are exactly those of the disassembled Program. -/
theorem EncodesProgram.disassembleSymbols_eq_iff {P : Program} {buf : List Symbol} (h : EncodesProgram P buf) :
    disassembleSymbols P = buf ↔ OperandsCanonical buf := by
  induction h with
  | nil => exact iff_of_true rfl operandsCanonical_nil
  | @cons i w P y hw _ ih =>
    rw [operandsCanonical_append_iff hw, ← ih, eq_comm (a := w)]
    change encodeBinary i ++ disassembleSymbols P = w ++ y ↔ _
    constructor
    · intro heq
      obtain ⟨_, hwi, hy⟩ := (encodes_encodeBinary i).eq_of_append_eq hw heq
      exact ⟨hwi, hy⟩
    · rintro ⟨hwi, hy⟩
      rw [hwi, hy]

/-! ### Bytes (R91, R93, R94) -/

@[simp] theorem strip_map_symbolByte (buf : List Symbol) : strip (buf.map Config.symbolByte) = buf := by
  simp [strip, List.filterMap_map]

theorem symbolByte_of_byteSymbol {b : Byte} {s : Symbol} (h : byteSymbol b = some s) : Config.symbolByte s = b := by
  unfold byteSymbol at h
  split_ifs at h <;> cases h <;> exact Eq.symm ‹_›

/-- Without comment bytes `strip` loses nothing. -/
theorem map_symbolByte_strip {bytes : List Byte} (h : ∀ b ∈ bytes, byteSymbol b ≠ none) :
    (strip bytes).map Config.symbolByte = bytes := by
  induction bytes with
  | nil => rfl
  | cons b bytes ih =>
    obtain ⟨hb, hbytes⟩ := List.forall_mem_cons.mp h
    obtain ⟨s, hs⟩ := Option.ne_none_iff_exists'.mp hb
    rw [strip, List.filterMap_cons_some hs, List.map_cons, symbolByte_of_byteSymbol hs]
    exact congrArg (b :: ·) (ih hbytes)

theorem assemble_ok_iff {bytes : List Byte} {P : Program} :
    assemble bytes = .ok P ↔ EncodesProgram P (strip bytes) :=
  assembleSymbols_ok_iff

theorem disassemble_eq_iff {bytes : List Byte} {P : Program} :
    disassemble P = bytes ↔ (∀ b ∈ bytes, byteSymbol b ≠ none) ∧ disassembleSymbols P = strip bytes := by
  constructor
  · rintro rfl
    exact ⟨fun b => byteSymbol_ne_none_of_mem_disassemble, (strip_map_symbolByte _).symm⟩
  · rintro ⟨hsym, hstrip⟩
    rw [disassemble, hstrip, map_symbolByte_strip hsym]

theorem assemble_disassemble (P : Program) : assemble (disassemble P) = .ok P := by
  rw [assemble_ok_iff, disassemble, strip_map_symbolByte]
  exact encodesProgram_disassembleSymbols P

/-- R94: when bytes that assemble are given back. -/
theorem disassemble_eq_iff_of_assemble {bytes : List Byte} {P : Program} (h : assemble bytes = .ok P) :
    disassemble P = bytes ↔ (∀ b ∈ bytes, byteSymbol b ≠ none) ∧ OperandsCanonical (strip bytes) := by
  rw [disassemble_eq_iff, (assemble_ok_iff.mp h).disassembleSymbols_eq_iff]

/-- Settles O50: `assemble` reads exactly the strings of whole instructions (`assemble_ok_iff`), and among
them `disassemble` emits the one with canonical operands. The push of 0 with sign `B` has no comment and is
not given back; neither is an exit after the comment `x`. -/
theorem assembleDisassembleProgram : Obligations.AssembleDisassembleProgram := by
  refine ⟨assemble_disassemble, fun _ _ => disassemble_eq_iff_of_assemble,
    ⟨[0x20, 0x20, 0x09, 0x0A], [.push 0], by decide⟩, [0x78, 0x0A, 0x0A, 0x0A], [.exit], ?_, by decide⟩
  have hexit : EncodesProgram [.exit] (strip [0x78, 0x0A, 0x0A, 0x0A]) := assemble_ok_iff.mp (by decide)
  exact hexit.disassembleSymbols_eq_iff.mp (by decide)

end Sys2Proof

/-! ### Decimal operands (R67) -/

namespace Sys2Proof.Machine

theorem digitValue_digitChar {d : Nat} (h : d < 10) : digitValue (digitChar d) = some d := by
  interval_cases d <;> decide

theorem accumulateDecimal_concat (t : Text) (c : Char) (acc : Nat) :
    accumulateDecimal (t ++ [c]) acc =
      (accumulateDecimal t acc).bind fun v => (digitValue c).map fun d => v * 10 + d := by
  induction t generalizing acc with
  | nil => cases h : digitValue c <;> simp [accumulateDecimal, h]
  | cons x t ih => cases h : digitValue x <;> simp [accumulateDecimal, h, ih]

theorem accumulateDecimal_decimalDigits {fuel v : Nat} (h : v ≤ fuel) :
    accumulateDecimal (decimalDigits fuel v) 0 = some v := by
  induction fuel generalizing v with
  | zero => simp [decimalDigits, accumulateDecimal]; omega
  | succ fuel ih =>
    unfold decimalDigits
    split
    · simp [accumulateDecimal, *]
    · have hdigit := digitValue_digitChar (Nat.mod_lt v (by decide : 10 > 0))
      simp only [accumulateDecimal_concat, ih (show v / 10 ≤ fuel by omega), hdigit, Option.bind_some, Option.map_some,
        Option.some.injEq]
      omega

theorem exists_digitChar_of_mem_decimalDigits {fuel v : Nat} {c : Char} (h : c ∈ decimalDigits fuel v) :
    ∃ d < 10, c = digitChar d := by
  induction fuel generalizing v with
  | zero => simp [decimalDigits] at h
  | succ fuel ih =>
    unfold decimalDigits at h
    split at h
    · simp at h
    · rcases List.mem_append.mp h with hc | hc
      · exact ih hc
      · exact ⟨v % 10, Nat.mod_lt v (by decide), List.mem_singleton.mp hc⟩

theorem exists_digitChar_of_mem_encodeDecimalNat {v : Nat} {c : Char} (h : c ∈ encodeDecimalNat v) :
    ∃ d < 10, c = digitChar d := by
  unfold encodeDecimalNat at h
  split at h
  · exact ⟨0, by decide, List.mem_singleton.mp h⟩
  · exact exists_digitChar_of_mem_decimalDigits h

theorem notMem_encodeDecimalNat {c : Char} (hc : digitValue c = none) (v : Nat) : c ∉ encodeDecimalNat v := by
  intro h
  obtain ⟨d, hd, rfl⟩ := exists_digitChar_of_mem_encodeDecimalNat h
  simp [digitValue_digitChar hd] at hc

theorem notMem_encodeDecimal {c : Char} (hc : digitValue c = none) (hminus : c ≠ '-') (v : Int) :
    c ∉ encodeDecimal v := by
  unfold encodeDecimal
  split
  · exact notMem_encodeDecimalNat hc _
  · simp [hminus, notMem_encodeDecimalNat hc]

theorem accumulateDecimal_encodeDecimalNat (v : Nat) : accumulateDecimal (encodeDecimalNat v) 0 = some v := by
  unfold encodeDecimalNat
  split
  · subst v
    decide
  · exact accumulateDecimal_decimalDigits le_rfl

theorem encodeDecimalNat_ne_nil (v : Nat) : encodeDecimalNat v ≠ [] := by
  intro h
  obtain rfl : 0 = v := by simpa [h, accumulateDecimal] using accumulateDecimal_encodeDecimalNat v
  simp [encodeDecimalNat] at h

theorem decodeDecimalNat_encodeDecimalNat (v : Nat) : decodeDecimalNat (encodeDecimalNat v) = some v := by
  rw [decodeDecimalNat, if_neg (encodeDecimalNat_ne_nil v), accumulateDecimal_encodeDecimalNat]

/-- R67: what is written is read back. -/
theorem decodeDecimal_encodeDecimal (v : Int) : decodeDecimal (encodeDecimal v) = some v := by
  unfold encodeDecimal
  split
  · next hv =>
    obtain ⟨c, rest, hcr⟩ := List.exists_cons_of_ne_nil (encodeDecimalNat_ne_nil v.toNat)
    have hc : c ≠ '-' := by
      rintro rfl
      exact notMem_encodeDecimalNat (c := '-') (by decide) v.toNat (by simp [hcr])
    rw [hcr, decodeDecimal, if_neg hc, ← hcr, decodeDecimalNat_encodeDecimalNat]
    simp [hv]
  · rw [decodeDecimal, if_pos rfl, decodeDecimalNat_encodeDecimalNat]
    simp only [Option.some.injEq]
    omega

/-! ### Lines and tokens (R96, R98) -/

theorem splitAt_of_notMem {sep : Char} {t : Text} (h : sep ∉ t) : splitAt sep t = [t] := by
  induction t with
  | nil => rfl
  | cons c t ih =>
    obtain ⟨hc, ht⟩ : sep ≠ c ∧ sep ∉ t := by simpa using h
    simp [splitAt, hc.symm, ih ht]

theorem splitAt_append_sep {sep : Char} {t : Text} (h : sep ∉ t) (rest : Text) :
    splitAt sep (t ++ sep :: rest) = t :: splitAt sep rest := by
  induction t with
  | nil => simp [splitAt]
  | cons c t ih =>
    obtain ⟨hc, ht⟩ : sep ≠ c ∧ sep ∉ t := by simpa using h
    simp [splitAt, hc.symm, ih ht]

/-! ### One instruction (R66, R95, R96) -/

@[simp] theorem operationOfMnemonic_foldCase_mnemonic (op : Operation) :
    operationOfMnemonic ((mnemonic op).map foldCase) = some op := by
  cases op <;> decide

theorem separators_notMem_mnemonic (op : Operation) : ' ' ∉ mnemonic op ∧ Config.lineSep ∉ mnemonic op := by
  cases op <;> decide

theorem encodeText_of_none {i : Instr} (h : i.op.kind = .none) : encodeText i = mnemonic i.op := by
  simp [encodeText, h]

theorem encodeText_of_operand {i : Instr} (h : i.op.kind ≠ .none) :
    encodeText i = mnemonic i.op ++ ' ' :: encodeDecimal i.operand := by
  unfold encodeText
  cases hk : i.op.kind with
  | none => exact absurd hk h
  | sint => rfl
  | uint => rfl

theorem decodeTextOperand_encodeDecimal (i : Instr) :
    decodeTextOperand i.op (encodeDecimal i.operand) = .ok i := by
  have hlabel : ¬ (i.op.kind = .uint ∧ i.operand < 0) := by
    rintro ⟨hk, hneg⟩
    exact absurd (i.operand_nonneg_of_uint hk) (by omega)
  simp [decodeTextOperand, decodeDecimal_encodeDecimal, if_neg hlabel]

/-- R99: the instruction's text is read back. -/
theorem decodeText_encodeText (i : Instr) : decodeText (encodeText i) = .ok i := by
  obtain ⟨hspace, _⟩ := separators_notMem_mnemonic i.op
  by_cases hk : i.op.kind = .none
  · have hi : i.op.withOperand 0 = i := by rw [← i.operand_eq_zero_of_none hk, Instr.withOperand_operand]
    rw [encodeText_of_none hk, decodeText, splitAt_of_notMem hspace]
    simp [decodeTokens, hk, hi]
  · have hspace' : ' ' ∉ encodeDecimal i.operand := notMem_encodeDecimal (by decide) (by decide) _
    rw [encodeText_of_operand hk, decodeText, splitAt_append_sep hspace, splitAt_of_notMem hspace']
    simp [decodeTokens, hk, decodeTextOperand_encodeDecimal]

theorem lineSep_notMem_encodeText (i : Instr) : Config.lineSep ∉ encodeText i := by
  obtain ⟨_, hop⟩ := separators_notMem_mnemonic i.op
  by_cases hk : i.op.kind = .none
  · rwa [encodeText_of_none hk]
  · have hn : Config.lineSep ∉ encodeDecimal i.operand := notMem_encodeDecimal (by decide) (by decide) _
    rw [encodeText_of_operand hk]
    simp [hop, hn, show Config.lineSep ≠ ' ' by decide]

/-! ### A whole program (R97 to R99) -/

/-- `toText` ends every line, so its pieces are the lines and one empty piece. -/
theorem splitAt_toText (P : Program) : splitAt Config.lineSep (toText P) = P.map encodeText ++ [[]] := by
  induction P with
  | nil => rfl
  | cons i P ih =>
    have hcons : toText (i :: P) = encodeText i ++ Config.lineSep :: toText P := by simp [toText]
    rw [hcons, splitAt_append_sep (lineSep_notMem_encodeText i), ih, List.map_cons, List.cons_append]

@[simp] theorem dropTrailingEmpty_concat_nil (lines : List Text) : dropTrailingEmpty (lines ++ [[]]) = lines := by
  simp [dropTrailingEmpty]

theorem decodeLines_map_encodeText (P : Program) : decodeLines (P.map encodeText) = .ok P := by
  induction P with
  | nil => rfl
  | cons i P ih => simp [decodeLines, decodeText_encodeText, ih]

theorem fromText_toText (P : Program) : fromText (toText P) = .ok P := by
  rw [fromText, splitAt_toText, dropTrailingEmpty_concat_nil, decodeLines_map_encodeText]

/-- Settles O51: every token and line is free of the separator that ends it, so the pieces are what was
written. `DUP` in upper case and a text without its final separator are not given back. -/
theorem textRoundTrips : Obligations.TextRoundTrips :=
  ⟨decodeText_encodeText, fromText_toText, ⟨"DUP".toList, .dup, by decide⟩, "exit".toList, [.exit], by decide⟩

end Sys2Proof.Machine

/-! ### Sequencer (R110, R111, R116) -/

namespace Sys2Proof.Machine

variable {s : State}

/-! ### The label scan -/

/-- The scan in the terms of R116: `k` holds the LABEL and no lower index does. -/
theorem findLabel_eq_some_iff {P : Program} {n k : Nat} :
    findLabel P n = some k ↔ P[k]? = some (.label n) ∧ ∀ j, j < k → P[j]? ≠ some (.label n) := by
  simp only [findLabel, List.findIdx?_eq_some_iff_getElem, beq_iff_eq]
  constructor
  · rintro ⟨hk, hlabel, hlower⟩
    refine ⟨List.getElem?_eq_some_iff.mpr ⟨hk, hlabel⟩, fun j hj hjlabel => ?_⟩
    obtain ⟨_, hj'⟩ := List.getElem?_eq_some_iff.mp hjlabel
    exact hlower j hj hj'
  · rintro ⟨hlabel, hlower⟩
    obtain ⟨hk, hlabel⟩ := List.getElem?_eq_some_iff.mp hlabel
    exact ⟨hk, hlabel, fun j hj hj' => hlower j hj (List.getElem?_eq_some_iff.mpr ⟨hj.trans hk, hj'⟩)⟩

theorem findLabel_eq_none_iff {P : Program} {n : Nat} : findLabel P n = none ↔ Instr.label n ∉ P := by
  simp only [findLabel, List.findIdx?_eq_none_iff, beq_eq_false_iff_ne]
  exact List.forall_mem_ne'

theorem branchToLabel_of_none {n : Nat} (h : findLabel s.program n = none) :
    branchToLabel n s = raise .unresolvedLabel s := by
  rcases branchToLabel_cases n s with ⟨_, hraise⟩ | ⟨k, hk, _⟩
  · exact hraise
  · rw [h] at hk
    cases hk

/-- Settles O46: the scan is the library's first index, read in the terms of R116; a branch to a label
that the scan does not find is the raise itself. -/
theorem findLabelIsFirstLabel : Obligations.FindLabelIsFirstLabel := by
  refine fun P n => ⟨fun k => findLabel_eq_some_iff, findLabel_eq_none_iff, ?_⟩
  rintro s rfl hnone
  rw [branchToLabel_of_none hnone]
  exact raise_raises _ s

/-! ### The step by what it fetches -/

theorem step_of_fetch {i : Instr} (hs : Enabled s) (hi : fetch s = some i) : step s = exec i s := by
  simp [step, stepRefusal_none.mpr hs, hi]

theorem step_of_fetch_none (hs : Enabled s) (hi : fetch s = none) : step s = raise .pcOutOfRange s := by
  simp [step, stepRefusal_none.mpr hs, hi]

theorem step_raises_pcOutOfRange (hs : Enabled s) (hpc : s.program.length ≤ s.pc) :
    Raises .pcOutOfRange s (step s) := by
  have hfetch : fetch s = none := List.getElem?_eq_none hpc
  rw [step_of_fetch_none hs hfetch]
  exact raise_raises _ s

/-! ### A fresh engine (R232) -/

theorem construct_eq_some_iff {P : Program} {answers : List ChanAnswer} :
    construct P answers = some s ↔ s = (State.reset.setProgram P).setAnswers answers := by
  rw [eq_comm (a := s)]
  exact Option.some_inj

/-- Settles O44: the fetch is a list access at `pc`, so it misses exactly from `len(P)` on; the fresh
engine is enabled with `pc = 0`, which is `len(P)` of the empty Program. -/
theorem fetchPastEndFaults : Obligations.FetchPastEndFaults := by
  refine ⟨fun s => step_raises_pcOutOfRange, ?_, ?_⟩
  · intro answers s hs
    obtain rfl := construct_eq_some_iff.mp hs
    exact step_raises_pcOutOfRange ⟨rfl, rfl⟩ (Nat.le_refl 0)
  · intro s hpc hs
    exact step_of_fetch hs (List.getElem?_eq_getElem hpc)

end Sys2Proof.Machine

/-! ### Channel writes (spec/42_io.md R134, R135) -/

namespace Sys2Proof.Machine

theorem exec_writech (s : State) : exec .writech s = pop s fun v t => advance (t.record (.wrChar v)) := rfl

theorem exec_writei (s : State) : exec .writei s = pop s fun v t => advance (t.record (.wrInt v)) := rfl

theorem pop_raises_of_empty {s : State} (h : s.stack = []) (rest : Int → State → Outcome) :
    Raises .stackUnderflow s (pop s rest) := by
  rw [pop_of_empty h]
  exact raise_raises _ s

/-- An instruction that pops a value, records it as `mk v` and advances completes or underflows as its pop
does. -/
theorem emits_popped_of_exec_eq {i : Instr} {mk : Int → Event}
    (hi : ∀ s, exec i s = pop s fun v t => advance (t.record (mk v))) :
    (∀ s xs v, s.stack = xs ++ [v] →
      exec i s = .next (((s.setStack xs).record (mk v)).setPc (s.pc + 1))) ∧
    (∀ s, s.stack = [] → Raises .stackUnderflow s (exec i s)) := by
  constructor
  · intro s xs v hs
    rw [hi, pop_of_stack hs, advance, State.record_pc, State.setStack_pc]
  · intro s hs
    rw [hi]
    exact pop_raises_of_empty hs _

/-- Settles O4: WRITECH records the popped value itself, as a character. -/
theorem writechEmitsPoppedValue : Obligations.WritechEmitsPoppedValue :=
  ⟨⟨by decide, encodeText_of_none rfl⟩, emits_popped_of_exec_eq exec_writech⟩

/-- Settles O5: WRITEI records the popped value itself, as an integer. -/
theorem writeiEmitsPoppedValue : Obligations.WriteiEmitsPoppedValue :=
  ⟨⟨by decide, encodeText_of_none rfl⟩, emits_popped_of_exec_eq exec_writei⟩

end Sys2Proof.Machine

/-! ### Stack family (spec/43_stack.md R141 to R144) -/

namespace Sys2Proof.Machine

variable {s : State}

/-! ### The meanings in terms of pops and the advance -/

theorem exec_push (v : Int) (s : State) :
    exec (.push v) s = .next ((s.setStack (s.stack ++ [v])).setPc (s.pc + 1)) := rfl

theorem exec_dup (s : State) : exec .dup s = pop s fun a t => push a t fun t => push a t advance := rfl

/-- SWAP's two pops are `popTwo`, which hands over the deeper element first. -/
theorem exec_swap (s : State) :
    exec .swap s = popTwo s fun b a t => push a t fun t => push b t advance := rfl

theorem exec_pop (s : State) : exec .pop s = pop s fun _ t => advance t := rfl

/-! ### Underflow of two pops -/

theorem popTwo_raises_of_length_lt (h : s.stack.length < 2) (rest : Int → Int → State → Outcome) :
    Raises .stackUnderflow s (popTwo s rest) := by
  rcases popTwo_cases s rest with ⟨_, S, hraise⟩ | ⟨xs, a, b, hs, _⟩
  · rw [hraise]
    exact (raise_raises _ _).of_same rfl rfl rfl
  · simp [hs] at h

/-! ### Two pushes -/

theorem push_push_advance (v w : Int) (s : State) :
    (push v s fun t => push w t advance) = .next ((s.setStack (s.stack ++ [v, w])).setPc (s.pc + 1)) := by
  simp [push_eq, advance]

/-! ### COPY in range -/

theorem elementAtDepth_append_cons (xs : List Int) (v : Int) (ys : List Int) :
    elementAtDepth (xs ++ v :: ys) ys.length = some v := by
  have hdepth : (0 : Int) ≤ ys.length ∧ (ys.length : Int) < (xs ++ v :: ys).length := by
    rw [List.length_append, List.length_cons]
    omega
  have hindex : (xs ++ v :: ys).length - 1 - (ys.length : Int).toNat = xs.length := by simp
  rw [elementAtDepth, if_pos hdepth, hindex]
  simp

theorem exec_copy_of_stack {xs ys : List Int} {v : Int} (h : s.stack = xs ++ v :: ys) :
    exec (.copy ys.length) s = .next ((s.setStack (s.stack ++ [v])).setPc (s.pc + 1)) := by
  have hv : elementAtDepth s.stack ys.length = some v := h ▸ elementAtDepth_append_cons xs v ys
  simp only [exec, execCopy, hv, push_eq, advance, State.setStack_pc]

/-! ### DUP, and COPY 0 as the same -/

theorem exec_dup_of_stack {xs : List Int} {a : Int} (h : s.stack = xs ++ [a]) :
    exec .dup s = .next ((s.setStack (xs ++ [a, a])).setPc (s.pc + 1)) := by
  rw [exec_dup, pop_of_stack h, push_push_advance]
  simp

/-- The top is the element at depth 0. -/
theorem exec_copy_zero_of_stack_ne_nil (h : s.stack ≠ []) : exec (.copy 0) s = exec .dup s := by
  obtain ⟨xs, a, hs⟩ := (List.eq_nil_or_concat' s.stack).resolve_left h
  have hcopy := exec_copy_of_stack (ys := []) hs
  simpa [exec_dup_of_stack hs, hs] using hcopy

/-! ### The obligations -/

/-- Settles O6: the taken parameters are unbounded, so the push goes on. -/
theorem pushPushesLiteral : Obligations.PushPushesLiteral :=
  ⟨fun _ => ⟨rfl, rfl⟩, exec_push⟩

/-- Settles O7: DUP pushes twice what it popped, which is the top once more. -/
theorem dupDuplicatesTop : Obligations.DupDuplicatesTop := by
  refine ⟨⟨by decide, encodeText_of_none rfl⟩, fun s xs a => exec_dup_of_stack,
    fun s => exec_copy_zero_of_stack_ne_nil, fun s hs => ?_⟩
  rw [exec_dup]
  exact pop_raises_of_empty hs _

/-- Settles O8: the top is pushed back before the element below it. -/
theorem swapExchangesTopTwo : Obligations.SwapExchangesTopTwo := by
  refine ⟨⟨by decide, encodeText_of_none rfl⟩, fun s xs b a hs => ?_, fun s hs => ?_⟩
  · rw [exec_swap, popTwo_of_stack hs, push_push_advance]
    simp
  · rw [exec_swap]
    exact popTwo_raises_of_length_lt hs _

/-- Settles O9: what the pop leaves is the result. -/
theorem popDiscardsTop : Obligations.PopDiscardsTop := by
  refine ⟨⟨by decide, encodeText_of_none rfl⟩, fun s xs a hs => ?_, fun s hs => ?_⟩
  · rw [exec_pop, pop_of_stack hs, advance, State.setStack_pc]
  · rw [exec_pop]
    exact pop_raises_of_empty hs _

end Sys2Proof.Machine

/-! ### Arithmetic family (spec/44_arith.md R151, R153 to R156) -/

namespace Sys2Proof.Machine

/-! ### The truncated quotient (R151) -/

/-- A quotient is its sign times its magnitude; where the sign is 0 because `|a| < |b|`, the magnitude
`|a| / |b|` is 0 too. -/
theorem tdiv_eq_int_tdiv (a b : Int) : tdiv a b = Int.tdiv a b := by
  rw [← Int.sign_mul_natAbs (Int.tdiv a b), Int.sign_tdiv, Int.natAbs_tdiv, tdiv]
  split
  · next hlt => simp [Nat.div_eq_of_lt hlt]
  · rfl

/-! ### The meanings in terms of two pops and a push -/

theorem exec_add (s : State) : exec .add s = popTwo s fun a b t => push (a + b) t advance := rfl

theorem exec_sub (s : State) : exec .sub s = popTwo s fun a b t => push (a - b) t advance := rfl

theorem exec_mul (s : State) : exec .mul s = popTwo s fun a b t => push (a * b) t advance := rfl

theorem exec_div (s : State) :
    exec .div s = popTwo s fun a b t => if b = 0 then raise .divideByZero t else push (tdiv a b) t advance := rfl

/-! ### What two pops and a push do -/

theorem push_advance_of_setStack (xs : List Int) (v : Int) (s : State) :
    push v (s.setStack xs) advance = .next ((s.setStack (xs ++ [v])).setPc (s.pc + 1)) := rfl

/-- An instruction that pops two operands, pushes `f` of them and advances completes or underflows as its
pops do. -/
theorem leaves_result_of_exec_eq {i : Instr} {f : Int → Int → Int}
    (hi : ∀ s, exec i s = popTwo s fun a b t => push (f a b) t advance) :
    (∀ s xs a b, s.stack = xs ++ [a, b] →
      exec i s = .next ((s.setStack (xs ++ [f a b])).setPc (s.pc + 1))) ∧
    (∀ s, s.stack.length < 2 → Raises .stackUnderflow s (exec i s)) := by
  constructor
  · intro s xs a b hs
    rw [hi, popTwo_of_stack hs, push_advance_of_setStack]
  · intro s hs
    rw [hi]
    exact popTwo_raises_of_length_lt hs _

/-- The same with a zero divisor refused: the test comes after both pops (R205), so too short a stack
underflows whatever is on it. -/
theorem leaves_quotient_of_exec_eq {i : Instr} {f : Int → Int → Int}
    (hi : ∀ s, exec i s =
      popTwo s fun a b t => if b = 0 then raise .divideByZero t else push (f a b) t advance) :
    (∀ s xs a b, s.stack = xs ++ [a, b] → b ≠ 0 →
      exec i s = .next ((s.setStack (xs ++ [f a b])).setPc (s.pc + 1))) ∧
    (∀ s xs a, s.stack = xs ++ [a, 0] → Raises .divideByZero s (exec i s)) ∧
    (∀ s, s.stack.length < 2 → Raises .stackUnderflow s (exec i s)) := by
  refine ⟨fun s xs a b hs hb => ?_, fun s xs a hs => ?_, fun s hs => ?_⟩
  · rw [hi, popTwo_of_stack hs, if_neg hb, push_advance_of_setStack]
  · rw [hi, popTwo_of_stack hs, if_pos rfl]
    exact (raise_raises _ _).of_same rfl rfl rfl
  · rw [hi]
    exact popTwo_raises_of_length_lt hs _

/-! ### The obligations -/

/-- Settles O12: the sum is pushed as it is, since the taken parameters are unbounded. -/
theorem addLeavesExactSum : Obligations.AddLeavesExactSum :=
  ⟨⟨by decide, encodeText_of_none rfl⟩, leaves_result_of_exec_eq exec_add⟩

/-- Settles O13: `popTwo` hands over the deeper element as the left operand. -/
theorem subLeavesExactDifference : Obligations.SubLeavesExactDifference :=
  ⟨⟨by decide, encodeText_of_none rfl⟩, leaves_result_of_exec_eq exec_sub⟩

/-- Settles O14: the full product is pushed. -/
theorem mulLeavesExactProduct : Obligations.MulLeavesExactProduct :=
  ⟨⟨by decide, encodeText_of_none rfl⟩, leaves_result_of_exec_eq exec_mul⟩

/-- Settles O15: DIV pushes the model's `tdiv`, which is Lean's truncated quotient. -/
theorem divTruncatesTowardZero : Obligations.DivTruncatesTowardZero := by
  obtain ⟨hquotient, hzero, hunderflow⟩ := leaves_quotient_of_exec_eq exec_div
  refine ⟨⟨by decide, encodeText_of_none rfl⟩, fun s xs a b hs hb => ?_, hzero, hunderflow⟩
  rw [hquotient s xs a b hs hb, tdiv_eq_int_tdiv]

end Sys2Proof.Machine

/-! ### Control family (spec/45_control.md R170 to R172, R176, R177) -/

namespace Sys2Proof.Machine

variable {s : State}

/-! ### The meanings in terms of the shared operations -/

theorem exec_label (n : Nat) (s : State) : exec (.label n) s = .next (s.setPc (s.pc + 1)) := rfl

/-- The return index is pushed before the label is resolved. -/
theorem exec_call (n : Nat) (s : State) :
    exec (.call n) s = branchToLabel n (s.setCalls (s.calls ++ [s.pc + 1])) := rfl

theorem exec_jmp (n : Nat) (s : State) : exec (.jmp n) s = branchToLabel n s := rfl

theorem exec_ret (s : State) : exec .ret s = rpop s fun t u => .next (u.setPc t) := rfl

theorem exec_exit (s : State) :
    exec .exit s = .next (((s.setTerminated true).setPc (Config.freePc s.draws)).draw) := rfl

/-! ### Branches by what the scan finds -/

theorem branchToLabel_of_some {n k : Nat} (h : findLabel s.program n = some k) :
    branchToLabel n s = .next (s.setPc k) := by
  simp only [branchToLabel, h, jumpTo]

theorem branchToLabel_raises_of_notMem {n : Nat} (h : Instr.label n ∉ s.program) :
    Raises .unresolvedLabel s (branchToLabel n s) := by
  rw [branchToLabel_of_none (findLabel_eq_none_iff.mpr h)]
  exact raise_raises _ s

/-! ### The pop of an empty call-return stack -/

theorem rpop_raises_of_empty (h : s.calls = []) (rest : Nat → State → Outcome) :
    Raises .callStackEmpty s (rpop s rest) := by
  rw [rpop_of_empty h]
  exact raise_raises _ s

/-! ### What keeps `T` and the Program

A rule for each shared operation. An operation that goes on hands the rest a state with the same `T` and
Program, so it keeps them as soon as the rest does in every state. -/

/-- Every next state of `o` has the `T` and the Program of `s`. -/
def KeepsTAndProgram (s : State) (o : Outcome) : Prop :=
  ∀ t, o = .next t → t.terminated = s.terminated ∧ t.program = s.program

theorem KeepsTAndProgram.of_same {u : State} {o : Outcome} (h : KeepsTAndProgram u o)
    (hT : u.terminated = s.terminated) (hP : u.program = s.program) : KeepsTAndProgram s o := by
  intro t ho
  obtain ⟨hT', hP'⟩ := h t ho
  exact ⟨hT'.trans hT, hP'.trans hP⟩

theorem raise_keeps (k : RuntimeFault) (s : State) : KeepsTAndProgram s (raise k s) := by
  intro t ht
  obtain ⟨_, hT, _, hP, _⟩ := raise_eq_next ht
  exact ⟨hT, hP⟩

theorem setPc_keeps (k : Nat) (s : State) : KeepsTAndProgram s (.next (s.setPc k)) := by
  rintro _ ⟨⟩
  exact ⟨rfl, rfl⟩

theorem advance_keeps (s : State) : KeepsTAndProgram s (advance s) := setPc_keeps _ s

theorem branchToLabel_keeps (n : Nat) (s : State) : KeepsTAndProgram s (branchToLabel n s) := by
  rcases branchToLabel_cases n s with ⟨_, h⟩ | ⟨k, _, h⟩
  · exact h ▸ raise_keeps _ s
  · exact h ▸ setPc_keeps k s

section

variable {rest : State → Outcome} (hrest : ∀ u, KeepsTAndProgram u (rest u))
include hrest

theorem push_keeps (v : Int) (s : State) : KeepsTAndProgram s (push v s rest) := (hrest _).of_same rfl rfl

theorem rpush_keeps (v : Nat) (s : State) : KeepsTAndProgram s (rpush v s rest) := (hrest _).of_same rfl rfl

theorem memWrite_keeps (a v : Int) (s : State) : KeepsTAndProgram s (memWrite a v s rest) :=
  (hrest _).of_same rfl rfl

end

section

variable {rest : Int → State → Outcome} (hrest : ∀ v u, KeepsTAndProgram u (rest v u))
include hrest

theorem pop_keeps (s : State) : KeepsTAndProgram s (pop s rest) := by
  rcases pop_cases s rest with ⟨_, h⟩ | ⟨xs, v, _, h⟩
  · exact h ▸ raise_keeps _ s
  · exact h ▸ (hrest v _).of_same rfl rfl

theorem chanRead_keeps (mk : Int → Event) (s : State) : KeepsTAndProgram s (chanRead mk s rest) := by
  obtain ⟨_, _, _, _, hT, _, hP, _⟩ := takeAnswer_same s
  rcases chanRead_cases mk s rest with ⟨v, _, h⟩ | ⟨_, h⟩ | ⟨_, h⟩
  · exact h ▸ (hrest v _).of_same hT hP
  · exact h ▸ (raise_keeps _ _).of_same hT hP
  · rw [h]
    rintro _ ⟨⟩

end

theorem rpop_keeps {rest : Nat → State → Outcome} (hrest : ∀ k u, KeepsTAndProgram u (rest k u)) (s : State) :
    KeepsTAndProgram s (rpop s rest) := by
  rcases rpop_cases s rest with ⟨_, h⟩ | ⟨rs, k, _, h⟩
  · exact h ▸ raise_keeps _ s
  · exact h ▸ (hrest k _).of_same rfl rfl

theorem popTwo_keeps {rest : Int → Int → State → Outcome} (hrest : ∀ a b u, KeepsTAndProgram u (rest a b u))
    (s : State) : KeepsTAndProgram s (popTwo s rest) :=
  pop_keeps (fun b => pop_keeps fun a => hrest a b) s

/-! ### Every instruction but EXIT keeps `T` and the Program -/

/-- The rest of DIV and of MOD after the pops: the zero test, then a push. -/
theorem zeroTest_push_keeps (b v : Int) (s : State) :
    KeepsTAndProgram s (if b = 0 then raise .divideByZero s else push v s advance) := by
  split
  · exact raise_keeps _ s
  · exact push_keeps advance_keeps v s

theorem execCopy_keeps (n : Int) (s : State) : KeepsTAndProgram s (execCopy n s) := by
  unfold execCopy
  split
  · exact raise_keeps _ s
  · exact push_keeps advance_keeps _ s

theorem execDrop_keeps (n : Int) (s : State) : KeepsTAndProgram s (execDrop n s) := by
  unfold execDrop
  split
  · exact raise_keeps _ s
  · exact (advance_keeps _).of_same rfl rfl

/-- The rest of JMPZERO and of JMPNEG after the pop. -/
theorem branchIf_keeps (c : Bool) (n : Nat) (s : State) :
    KeepsTAndProgram s (if c then branchToLabel n s else advance s) := by
  split
  · exact branchToLabel_keeps n s
  · exact advance_keeps s

theorem record_advance_keeps (e : Event) (s : State) : KeepsTAndProgram s (advance (s.record e)) :=
  (advance_keeps _).of_same rfl rfl

theorem exec_keeps_of_ne_exit {i : Instr} (hi : i ≠ .exit) (s : State) : KeepsTAndProgram s (exec i s) := by
  cases i with
  | readch | readi => exact pop_keeps (fun a => chanRead_keeps (memWrite_keeps advance_keeps a) _) s
  | writech | writei => exact pop_keeps (fun _ => record_advance_keeps _) s
  | push v => exact push_keeps advance_keeps v s
  | dup => exact pop_keeps (fun a => push_keeps (push_keeps advance_keeps a) a) s
  | swap => exact popTwo_keeps (fun b a => push_keeps (push_keeps advance_keeps b) a) s
  | pop => exact pop_keeps (fun _ => advance_keeps) s
  | copy n => exact execCopy_keeps n s
  | drop n => exact execDrop_keeps n s
  | add | sub | mul => exact popTwo_keeps (fun _ _ => push_keeps advance_keeps _) s
  | div | mod => exact popTwo_keeps (fun _ b => zeroTest_push_keeps b _) s
  | label => exact advance_keeps s
  | call n => exact rpush_keeps (branchToLabel_keeps n) _ s
  | jmp n => exact branchToLabel_keeps n s
  | jmpzero n | jmpneg n => exact pop_keeps (fun _ => branchIf_keeps _ n) s
  | ret => exact rpop_keeps setPc_keeps s
  | exit => exact absurd rfl hi
  | store => exact pop_keeps (fun v => pop_keeps fun a => memWrite_keeps advance_keeps a v) s
  | load => exact pop_keeps (fun _ => push_keeps advance_keeps _) s

/-! ### The obligations -/

/-- Settles O18: LABEL's meaning is the default advance alone. -/
theorem labelOnlyAdvances : Obligations.LabelOnlyAdvances :=
  ⟨fun _ => ⟨rfl, rfl⟩, exec_label⟩

/-- Settles O19: the pushed return index leaves the Program, so CALL resolves its label as JMP does. -/
theorem callSavesReturnIndex : Obligations.CallSavesReturnIndex := by
  refine ⟨fun _ => ⟨rfl, rfl⟩, fun n s k hk => ?_, fun n s hn => ?_⟩
  · rw [exec_call]
    exact branchToLabel_of_some hk
  · have hraise := branchToLabel_raises_of_notMem (s := s.setCalls (s.calls ++ [s.pc + 1])) hn
    rw [exec_call]
    exact hraise.of_same rfl rfl rfl

/-- Settles O20: JMP is the branch and nothing else. -/
theorem jmpGoesToLabel : Obligations.JmpGoesToLabel := by
  refine ⟨fun _ => ⟨rfl, rfl⟩, fun n s k hk => ?_, fun n s hn => ?_⟩
  · rw [exec_jmp, branchToLabel_of_some hk]
  · rw [exec_jmp]
    exact branchToLabel_raises_of_notMem hn

/-- Settles O23: the popped index becomes the pc unchecked, so the pop's is the only fault. -/
theorem retRestoresSavedIndex : Obligations.RetRestoresSavedIndex := by
  refine ⟨⟨by decide, encodeText_of_none rfl⟩, fun s rs k hs => ?_, fun s hs => ?_⟩
  · rw [exec_ret, rpop_of_calls hs]
  · rw [exec_ret]
    exact rpop_raises_of_empty hs _

/-- Settles O24: EXIT writes `T` and the unread `pc`; every other instruction is built from operations that
keep `T`. -/
theorem exitAloneSetsTerminated : Obligations.ExitAloneSetsTerminated := by
  refine ⟨⟨by decide, encodeText_of_none rfl⟩, fun s => ?_, fun i s t hi ht => ?_⟩
  · exact ⟨_, exec_exit s, by simp⟩
  · obtain ⟨hT, _⟩ := exec_keeps_of_ne_exit hi s t ht
    exact hT

end Sys2Proof.Machine

/-! ### Heap family (spec/46_heap.md R190, R191; the heap's law of R32) -/

namespace Sys2Proof.Machine

variable {s : State}

/-! ### What a read finds

None of these needs the canonical form: a read takes the first cell of its address, and a write leaves one
cell of its address at most. -/

theorem Memory.read_nil (a : Int) : Memory.read [] a = 0 := rfl

theorem Memory.read_cons (c : Int × Int) (H : Memory) (a : Int) :
    Memory.read (c :: H) a = if c.1 = a then c.2 else Memory.read H a := rfl

theorem Memory.read_eq_zero_of_notMem {H : Memory} {a : Int} (h : ∀ v, (a, v) ∉ H) : Memory.read H a = 0 := by
  induction H with
  | nil => rfl
  | cons c H ih =>
    have hc : c.1 ≠ a := fun hca => h c.2 (by simp [← hca])
    rw [Memory.read_cons, if_neg hc]
    exact ih fun v hv => h v (List.mem_cons_of_mem c hv)

theorem Memory.read_erase_same (H : Memory) (a : Int) : Memory.read (H.filter (fun c => c.1 != a)) a = 0 :=
  Memory.read_eq_zero_of_notMem fun v hv => by simp at hv

theorem Memory.read_erase_of_ne (H : Memory) {a b : Int} (h : b ≠ a) :
    Memory.read (H.filter (fun c => c.1 != a)) b = Memory.read H b := by
  induction H with
  | nil => rfl
  | cons c H ih =>
    by_cases hc : c.1 = a
    · have hcb : c.1 ≠ b := fun hcb => h (hcb.symm.trans hc)
      rw [List.filter_cons_of_neg (by simp [hc]), ih, Memory.read_cons, if_neg hcb]
    · rw [List.filter_cons_of_pos (by simp [hc]), Memory.read_cons, Memory.read_cons, ih]

/-- A new cell may go behind others; none of them has its address. -/
theorem Memory.read_insert_same {H : Memory} {a : Int} (v : Int) (new : ∀ c ∈ H, c.1 ≠ a) :
    Memory.read (Memory.insert H a v) a = v := by
  induction H with
  | nil => simp [Memory.insert, Memory.read_cons]
  | cons c H ih =>
    rw [List.forall_mem_cons] at new
    obtain ⟨hc, hH⟩ := new
    rw [Memory.insert]
    split
    · rw [Memory.read_cons, if_pos rfl]
    · rw [Memory.read_cons, if_neg hc, ih hH]

theorem Memory.read_insert_of_ne (H : Memory) {a b : Int} (v : Int) (h : b ≠ a) :
    Memory.read (Memory.insert H a v) b = Memory.read H b := by
  induction H with
  | nil => simp [Memory.insert, Memory.read_cons, h.symm]
  | cons c H ih =>
    rw [Memory.insert]
    split
    · rw [Memory.read_cons, if_neg h.symm]
    · rw [Memory.read_cons, Memory.read_cons, ih]

/-- A 0 is read back because its cell is not listed. -/
@[simp] theorem Memory.read_write_same (H : Memory) (a v : Int) : Memory.read (Memory.write H a v) a = v := by
  unfold Memory.write
  split
  · next hv => rw [Memory.read_erase_same, hv]
  · exact Memory.read_insert_same v fun c hc => by simpa using (List.mem_filter.mp hc).2

theorem Memory.read_write_of_ne (H : Memory) {a b : Int} (v : Int) (h : b ≠ a) :
    Memory.read (Memory.write H a v) b = Memory.read H b := by
  unfold Memory.write
  split
  · exact Memory.read_erase_of_ne H h
  · rw [Memory.read_insert_of_ne _ v h, Memory.read_erase_of_ne H h]

/-! ### The meanings in terms of the shared operations -/

/-- STORE's two pops are `popTwo`, which hands over the address before the value. -/
theorem exec_store (s : State) : exec .store s = popTwo s fun a v t => memWrite a v t advance := rfl

theorem exec_load (s : State) : exec .load s = pop s fun a t => push (memRead a t) t advance := rfl

theorem exec_store_of_stack {xs : List Int} {a v : Int} (h : s.stack = xs ++ [a, v]) :
    exec .store s = .next (((s.setStack xs).setHeap (s.heap.write a v)).setPc (s.pc + 1)) := by
  rw [exec_store, popTwo_of_stack h, memWrite_eq]
  rfl

theorem exec_load_of_stack {xs : List Int} {a : Int} (h : s.stack = xs ++ [a]) :
    exec .load s = .next ((s.setStack (xs ++ [s.heap.read a])).setPc (s.pc + 1)) := by
  rw [exec_load, pop_of_stack h, push_advance_of_setStack, memRead, State.setStack_heap]

/-! ### The obligations -/

/-- Settles O25: what is stored is one heap write, and a write changes what is read at its address alone. -/
theorem storeWritesOneCell : Obligations.StoreWritesOneCell := by
  refine ⟨⟨by decide, encodeText_of_none rfl⟩, fun s xs a v hs => ?_, fun s hs => ?_⟩
  · exact ⟨_, exec_store_of_stack hs, Memory.read_write_same s.heap a v,
      fun b => Memory.read_write_of_ne s.heap v, rfl⟩
  · rw [exec_store]
    exact popTwo_raises_of_length_lt hs _

/-- Settles O26: the popped address is read in the heap as it is, and a read writes nothing. -/
theorem loadPushesCell : Obligations.LoadPushesCell := by
  refine ⟨⟨by decide, encodeText_of_none rfl⟩, fun s xs a => exec_load_of_stack,
    fun H a => Memory.read_eq_zero_of_notMem, fun s hs => ?_⟩
  rw [exec_load]
  exact pop_raises_of_empty hs _

end Sys2Proof.Machine

/-! ### What an instruction can do (R8, R24, R112, R204)

Each instruction's complete outcome, said once: `Effect` is what it does when it completes, and
`ExecOutcome` adds the raises of its line of the table of R204 and the channel that never answers. -/

namespace Sys2Proof.Machine

variable {i : Instr} {s t u : State}

/-! ### The remaining meanings in terms of the shared operations -/

theorem exec_readch (s : State) :
    exec .readch s = pop s fun a t => chanRead .rdChar t fun c t => memWrite a c t advance := rfl

theorem exec_readi (s : State) :
    exec .readi s = pop s fun a t => chanRead .rdInt t fun v t => memWrite a v t advance := rfl

theorem exec_mod (s : State) :
    exec .mod s = popTwo s fun a b t => if b = 0 then raise .divideByZero t else push (tmod a b) t advance := rfl

theorem exec_jmpzero (n : Nat) (s : State) :
    exec (.jmpzero n) s = pop s fun v t => if testZero v then branchToLabel n t else advance t := rfl

theorem exec_jmpneg (n : Nat) (s : State) :
    exec (.jmpneg n) s = pop s fun v t => if testNegative v then branchToLabel n t else advance t := rfl

theorem exec_copy_of_none {n : Int} (h : elementAtDepth s.stack n = none) :
    exec (.copy n) s = raise .copyOutOfRange s := by
  simp only [exec, execCopy, h]

theorem exec_copy_of_some {n v : Int} (h : elementAtDepth s.stack n = some v) :
    exec (.copy n) s = .next ((s.setStack (s.stack ++ [v])).setPc (s.pc + 1)) := by
  simp only [exec, execCopy, h]
  rfl

theorem exec_drop_of_none {n : Int} (h : slideUnderTop s.stack n = none) :
    exec (.drop n) s = raise .dropOutOfRange s := by
  simp only [exec, execDrop, h]

theorem exec_drop_of_some {n : Int} {S : List Int} (h : slideUnderTop s.stack n = some S) :
    exec (.drop n) s = .next ((s.setStack S).setPc (s.pc + 1)) := by
  simp only [exec, execDrop, h]
  rfl

/-- The channel does not look at the operand stack. -/
theorem takeAnswer_setStack (s : State) (S : List Int) :
    takeAnswer (s.setStack S) = ((takeAnswer s).1, (takeAnswer s).2.setStack S) := by
  unfold takeAnswer
  rw [State.setStack_answers]
  cases s.answers <;> rfl

section

variable {mk : Int → Event} {xs : List Int}

theorem chanRead_memWrite_of_value {v : Int} (a : Int) (h : (takeAnswer s).1 = .value v) :
    (chanRead mk (s.setStack xs) fun v t => memWrite a v t advance) =
      .next (((((takeAnswer s).2.setStack xs).setHeap (s.heap.write a v)).record (mk v)).setPc (s.pc + 1)) := by
  obtain ⟨_, hH, _, hpc, _⟩ := takeAnswer_same s
  simp only [chanRead, takeAnswer_setStack, h, memWrite_eq, advance, State.record_heap, State.setStack_heap, hH,
    State.setHeap_pc, State.record_pc, State.setStack_pc, hpc]
  rfl

theorem chanRead_setStack_of_fail {rest : Int → State → Outcome} (h : (takeAnswer s).1 = .fail) :
    chanRead mk (s.setStack xs) rest = raise .ioFailure ((takeAnswer s).2.setStack xs) := by
  simp only [chanRead, takeAnswer_setStack, h]

theorem chanRead_setStack_of_silent {rest : Int → State → Outcome} (h : (takeAnswer s).1 = .silent) :
    chanRead mk (s.setStack xs) rest = .fault .channelNeverAnswers := by
  simp only [chanRead, takeAnswer_setStack, h]

end

/-! ### The effect of a completed instruction -/

/-- The operations that change the operand stack and the pc alone (R24, R140, R150). -/
def changesStackAlone : List Operation :=
  [.push, .dup, .swap, .pop, .copy, .drop, .add, .sub, .mul, .div, .mod, .load]

/-- `Effect s i t`: `i` completes from `s` in `t`. Of the operations that change the operand stack and the
pc alone, which stack they leave is not said. -/
inductive Effect (s : State) : Instr → State → Prop
  | stack {i : Instr} (hi : i.op ∈ changesStackAlone) (S : List Int) : Effect s i ((s.setStack S).setPc (s.pc + 1))
  | label (n : Nat) : Effect s (.label n) (s.setPc (s.pc + 1))
  | call {n k : Nat} (hk : findLabel s.program n = some k) :
      Effect s (.call n) ((s.setCalls (s.calls ++ [s.pc + 1])).setPc k)
  | jmp {n k : Nat} (hk : findLabel s.program n = some k) : Effect s (.jmp n) (s.setPc k)
  | jmpzeroTaken {n k : Nat} {xs : List Int} (hs : s.stack = xs ++ [0])
      (hk : findLabel s.program n = some k) : Effect s (.jmpzero n) ((s.setStack xs).setPc k)
  | jmpzeroNotTaken {n : Nat} {xs : List Int} {v : Int} (hs : s.stack = xs ++ [v]) (hv : v ≠ 0) :
      Effect s (.jmpzero n) ((s.setStack xs).setPc (s.pc + 1))
  | jmpnegTaken {n k : Nat} {xs : List Int} {v : Int} (hs : s.stack = xs ++ [v]) (hv : v < 0)
      (hk : findLabel s.program n = some k) : Effect s (.jmpneg n) ((s.setStack xs).setPc k)
  | jmpnegNotTaken {n : Nat} {xs : List Int} {v : Int} (hs : s.stack = xs ++ [v]) (hv : 0 ≤ v) :
      Effect s (.jmpneg n) ((s.setStack xs).setPc (s.pc + 1))
  | ret {rs : List Nat} {k : Nat} (hs : s.calls = rs ++ [k]) : Effect s .ret ((s.setCalls rs).setPc k)
  | exit : Effect s .exit (((s.setTerminated true).setPc (Config.freePc s.draws)).draw)
  | store {xs : List Int} {a v : Int} (hs : s.stack = xs ++ [a, v]) :
      Effect s .store (((s.setStack xs).setHeap (s.heap.write a v)).setPc (s.pc + 1))
  | readch {xs : List Int} {a v : Int} (hs : s.stack = xs ++ [a]) (hv : (takeAnswer s).1 = .value v) :
      Effect s .readch
        (((((takeAnswer s).2.setStack xs).setHeap (s.heap.write a v)).record (.rdChar v)).setPc (s.pc + 1))
  | readi {xs : List Int} {a v : Int} (hs : s.stack = xs ++ [a]) (hv : (takeAnswer s).1 = .value v) :
      Effect s .readi
        (((((takeAnswer s).2.setStack xs).setHeap (s.heap.write a v)).record (.rdInt v)).setPc (s.pc + 1))
  | writech {xs : List Int} {v : Int} (hs : s.stack = xs ++ [v]) :
      Effect s .writech (((s.setStack xs).record (.wrChar v)).setPc (s.pc + 1))
  | writei {xs : List Int} {v : Int} (hs : s.stack = xs ++ [v]) :
      Effect s .writei (((s.setStack xs).record (.wrInt v)).setPc (s.pc + 1))

theorem Effect.fault (h : Effect s i t) : t.fault = s.fault := by
  obtain ⟨_, _, _, _, _, hF, _⟩ := takeAnswer_same s
  cases h with
  | readch | readi => exact hF
  | _ => rfl

/-! ### Every outcome of an instruction -/

/-- `i` is a branch that names label `n`. -/
def BranchesTo (n : Nat) (i : Instr) : Prop := i = .call n ∨ i = .jmp n ∨ i = .jmpzero n ∨ i = .jmpneg n

theorem BranchesTo.unresolvedLabel_mem {n : Nat} (h : BranchesTo n i) : .unresolvedLabel ∈ canRaise i := by
  rcases h with rfl | rfl | rfl | rfl <;> simp [canRaise]

/-- `ExecOutcome s i o`: `o` is an outcome that `i` may have from `s`. A raise happens in a state that `i`
may have changed, but not in `T`, trace or Program; it is `UnresolvedLabel` only where the label is missing. -/
inductive ExecOutcome (s : State) (i : Instr) : Outcome → Prop
  | next {t : State} (h : Effect s i t) : ExecOutcome s i (.next t)
  | raised {k : RuntimeFault} {u : State} (hk : k ∈ canRaise i)
      (hlabel : k = .unresolvedLabel → ∃ n, BranchesTo n i ∧ Instr.label n ∉ s.program)
      (hT : u.terminated = s.terminated) (ht : u.trace = s.trace) (hP : u.program = s.program) :
      ExecOutcome s i (raise k u)
  | stuck (hi : i = .readch ∨ i = .readi) (hs : s.stack ≠ []) (ha : (takeAnswer s).1 = .silent) :
      ExecOutcome s i (.fault .channelNeverAnswers)

theorem pop_outcome {rest : Int → State → Outcome} (hk : .stackUnderflow ∈ canRaise i)
    (hrest : ∀ xs v, s.stack = xs ++ [v] → ExecOutcome s i (rest v (s.setStack xs))) :
    ExecOutcome s i (pop s rest) := by
  rcases pop_cases s rest with ⟨_, h⟩ | ⟨xs, v, hs, h⟩
  · exact h ▸ .raised hk nofun rfl rfl rfl
  · exact h ▸ hrest xs v hs

theorem popTwo_outcome {rest : Int → Int → State → Outcome} (hk : .stackUnderflow ∈ canRaise i)
    (hrest : ∀ xs a b, s.stack = xs ++ [a, b] → ExecOutcome s i (rest a b (s.setStack xs))) :
    ExecOutcome s i (popTwo s rest) := by
  rcases popTwo_cases s rest with ⟨_, S, h⟩ | ⟨xs, a, b, hs, h⟩
  · exact h ▸ .raised hk nofun rfl rfl rfl
  · exact h ▸ hrest xs a b hs

theorem branchToLabel_outcome {n : Nat} (hi : BranchesTo n i)
    (hT : u.terminated = s.terminated) (ht : u.trace = s.trace) (hP : u.program = s.program)
    (hnext : ∀ k, findLabel s.program n = some k → Effect s i (u.setPc k)) :
    ExecOutcome s i (branchToLabel n u) := by
  rcases branchToLabel_cases n u with ⟨hfind, h⟩ | ⟨k, hfind, h⟩
  · have hn : Instr.label n ∉ s.program := findLabel_eq_none_iff.mp (hP ▸ hfind)
    exact h ▸ .raised hi.unresolvedLabel_mem (fun _ => ⟨n, hi, hn⟩) hT ht hP
  · exact h ▸ .next (hnext k (hP ▸ hfind))

/-- READCH and READI after the pop: the answer decides. -/
theorem chanRead_outcome {mk : Int → Event} {xs : List Int} {a : Int} (hi : i = .readch ∨ i = .readi)
    (hk : .ioFailure ∈ canRaise i) (hs : s.stack = xs ++ [a])
    (hnext : ∀ v, (takeAnswer s).1 = .value v → Effect s i
      (((((takeAnswer s).2.setStack xs).setHeap (s.heap.write a v)).record (mk v)).setPc (s.pc + 1))) :
    ExecOutcome s i (chanRead mk (s.setStack xs) fun v t => memWrite a v t advance) := by
  cases ha : (takeAnswer s).1 with
  | value v =>
    rw [chanRead_memWrite_of_value a ha]
    exact .next (hnext v ha)
  | fail =>
    obtain ⟨_, _, _, _, hT, _, hP, ht⟩ := takeAnswer_same s
    rw [chanRead_setStack_of_fail ha]
    exact .raised hk nofun hT ht hP
  | silent =>
    rw [chanRead_setStack_of_silent ha]
    exact .stuck hi (by simp [hs]) ha

/-- ADD, SUB and MUL. -/
theorem arith_outcome {f : Int → Int → Int} (hk : .stackUnderflow ∈ canRaise i)
    (hi : i.op ∈ changesStackAlone) : ExecOutcome s i (popTwo s fun a b t => push (f a b) t advance) :=
  popTwo_outcome hk fun xs a b _ => .next (.stack hi (xs ++ [f a b]))

/-- DIV and MOD. -/
theorem division_outcome {f : Int → Int → Int} (hk : .stackUnderflow ∈ canRaise i)
    (hz : .divideByZero ∈ canRaise i) (hi : i.op ∈ changesStackAlone) :
    ExecOutcome s i
      (popTwo s fun a b t => if b = 0 then raise .divideByZero t else push (f a b) t advance) := by
  refine popTwo_outcome hk fun xs a b _ => ?_
  split
  · exact .raised hz nofun rfl rfl rfl
  · exact .next (.stack hi (xs ++ [f a b]))

theorem exec_copy_outcome (n : Int) (s : State) : ExecOutcome s (.copy n) (exec (.copy n) s) := by
  rcases elementAtDepth_cases s.stack n with ⟨_, h⟩ | ⟨v, _, _, _, h⟩
  · rw [exec_copy_of_none h]
    exact .raised (List.mem_singleton.mpr rfl) nofun rfl rfl rfl
  · rw [exec_copy_of_some h]
    exact .next (.stack (by simp [Instr.op, changesStackAlone]) _)

theorem exec_drop_outcome (n : Int) (s : State) : ExecOutcome s (.drop n) (exec (.drop n) s) := by
  rcases slideUnderTop_cases s.stack n with ⟨_, h⟩ | ⟨_, _, h⟩
  · rw [exec_drop_of_none h]
    exact .raised (List.mem_singleton.mpr rfl) nofun rfl rfl rfl
  · rw [exec_drop_of_some h]
    exact .next (.stack (by simp [Instr.op, changesStackAlone]) _)

theorem exec_jmpzero_outcome (n : Nat) (s : State) : ExecOutcome s (.jmpzero n) (exec (.jmpzero n) s) := by
  rw [exec_jmpzero]
  refine pop_outcome (by simp [canRaise]) fun xs v hs => ?_
  by_cases hv : v = 0
  · subst hv
    exact branchToLabel_outcome (.inr (.inr (.inl rfl))) rfl rfl rfl fun k => .jmpzeroTaken hs
  · rw [if_neg (by simpa [testZero] using hv)]
    exact .next (.jmpzeroNotTaken hs hv)

theorem exec_jmpneg_outcome (n : Nat) (s : State) : ExecOutcome s (.jmpneg n) (exec (.jmpneg n) s) := by
  rw [exec_jmpneg]
  refine pop_outcome (by simp [canRaise]) fun xs v hs => ?_
  by_cases hv : v < 0
  · rw [if_pos (by simpa [testNegative] using hv)]
    exact branchToLabel_outcome (.inr (.inr (.inr rfl))) rfl rfl rfl fun k => .jmpnegTaken hs hv
  · rw [if_neg (by simpa [testNegative] using hv)]
    exact .next (.jmpnegNotTaken hs (not_lt.mp hv))

theorem exec_ret_outcome (s : State) : ExecOutcome s .ret (exec .ret s) := by
  rw [exec_ret]
  rcases rpop_cases s fun t u => .next (u.setPc t) with ⟨_, h⟩ | ⟨rs, k, hs, h⟩
  · exact h ▸ .raised (by decide) nofun rfl rfl rfl
  · exact h ▸ .next (.ret hs)

/-- Every instruction has one of its outcomes. -/
theorem exec_outcome (i : Instr) (s : State) : ExecOutcome s i (exec i s) := by
  cases i with
  | readch =>
    rw [exec_readch]
    exact pop_outcome (by decide) fun xs a hs =>
      chanRead_outcome (.inl rfl) (by decide) hs fun v => .readch hs
  | readi =>
    rw [exec_readi]
    exact pop_outcome (by decide) fun xs a hs =>
      chanRead_outcome (.inr rfl) (by decide) hs fun v => .readi hs
  | writech =>
    rw [exec_writech]
    exact pop_outcome (by decide) fun xs v hs => .next (.writech hs)
  | writei =>
    rw [exec_writei]
    exact pop_outcome (by decide) fun xs v hs => .next (.writei hs)
  | push v => exact .next (.stack (by simp [Instr.op, changesStackAlone]) _)
  | dup =>
    rw [exec_dup]
    exact pop_outcome (by decide) fun xs a _ => .next (.stack (by decide) (xs ++ [a] ++ [a]))
  | swap =>
    rw [exec_swap]
    exact popTwo_outcome (by decide) fun xs b a _ => .next (.stack (by decide) (xs ++ [a] ++ [b]))
  | pop =>
    rw [exec_pop]
    exact pop_outcome (by decide) fun xs _ _ => .next (.stack (by decide) xs)
  | copy n => exact exec_copy_outcome n s
  | drop n => exact exec_drop_outcome n s
  | add => exact arith_outcome (by decide) (by decide)
  | sub => exact arith_outcome (by decide) (by decide)
  | mul => exact arith_outcome (by decide) (by decide)
  | div => exact division_outcome (by decide) (by decide) (by decide)
  | mod => exact division_outcome (by decide) (by decide) (by decide)
  | label n => exact .next (.label n)
  | call n =>
    rw [exec_call]
    exact branchToLabel_outcome (.inl rfl) rfl rfl rfl fun k => .call
  | jmp n =>
    rw [exec_jmp]
    exact branchToLabel_outcome (.inr (.inl rfl)) rfl rfl rfl fun k => .jmp
  | jmpzero n => exact exec_jmpzero_outcome n s
  | jmpneg n => exact exec_jmpneg_outcome n s
  | ret => exact exec_ret_outcome s
  | exit => exact .next .exit
  | store =>
    rw [exec_store]
    exact popTwo_outcome (by decide) fun xs a v hs => .next (.store hs)
  | load =>
    rw [exec_load]
    exact pop_outcome (by decide) fun xs a _ => .next (.stack (by decide) (xs ++ [s.heap.read a]))

/-- A next state is the effect, or what one of the listed raises leaves. -/
theorem exec_eq_next (h : exec i s = .next t) :
    Effect s i t ∨ ∃ k ∈ canRaise i, t.fault = some k ∧ t.terminated = s.terminated ∧
      t.trace = s.trace ∧ t.heap.wf ∧
      (k = .unresolvedLabel → ∃ n, BranchesTo n i ∧ Instr.label n ∉ s.program) := by
  generalize ho : exec i s = o at h
  cases ho ▸ exec_outcome i s with
  | next he =>
    cases h
    exact .inl he
  | raised hk hlabel hT ht hP =>
    obtain ⟨hF, hT', ht', _, _, hH⟩ := raise_eq_next h
    exact .inr ⟨_, hk, hF, hT'.trans hT, ht'.trans ht, hH, hlabel⟩
  | stuck => cases h

theorem effect_of_completes (h : Completes (exec i s) t) : Effect s i t := by
  obtain ⟨ht, hF⟩ := h
  rcases exec_eq_next ht with he | ⟨k, _, hk, _⟩
  · exact he
  · rw [hF] at hk
    cases hk

end Sys2Proof.Machine

/-! ### What every step keeps (R12 to R15, R42, R120 to R122) -/

namespace Sys2Proof.Machine

variable {i : Instr} {s t : State}

/-! ### A step that has a next state -/

theorem step_of_terminated (h : s.terminated = true) : step s = .refused .stepAfterTermination := by
  simp [step, stepRefusal, h]

theorem step_of_faulted {k : RuntimeFault} (hT : s.terminated = false) (hF : s.fault = some k) :
    step s = .refused (.stepAfterFault k) := by
  simp [step, stepRefusal, hT, hF]

theorem enabled_of_step_eq_next (h : step s = .next t) : Enabled s := by
  cases hT : s.terminated with
  | true => simp [step_of_terminated hT] at h
  | false =>
    cases hF : s.fault with
    | none => exact ⟨hT, hF⟩
    | some k => simp [step_of_faulted hT hF] at h

/-- A step that has a next state ran an instruction, or it raised: past the end of the Program, or for a
missing label, or for another reason. -/
theorem step_eq_next (h : step s = .next t) :
    Enabled s ∧
      ((∃ i, fetch s = some i ∧ Effect s i t) ∨
       ∃ k, t.fault = some k ∧ t.terminated = false ∧ t.heap.wf ∧
        (k = .unresolvedLabel → ∃ i n, fetch s = some i ∧ BranchesTo n i ∧ Instr.label n ∉ s.program)) := by
  have hs := enabled_of_step_eq_next h
  have ⟨hT, _⟩ := hs
  refine ⟨hs, ?_⟩
  cases hi : fetch s with
  | none =>
    rw [step_of_fetch_none hs hi] at h
    obtain ⟨hF, hT', _, _, _, hH⟩ := raise_eq_next h
    exact .inr ⟨_, hF, hT'.trans hT, hH, nofun⟩
  | some i =>
    rw [step_of_fetch hs hi] at h
    rcases exec_eq_next h with he | ⟨k, _, hF, hT', _, hH, hlabel⟩
    · exact .inl ⟨i, rfl, he⟩
    · refine .inr ⟨k, hF, hT'.trans hT, hH, fun hk => ?_⟩
      obtain ⟨n, hn⟩ := hlabel hk
      exact ⟨i, n, rfl, hn⟩

/-! ### The Program (R42) -/

theorem exec_program (h : exec i s = .next t) : t.program = s.program := by
  by_cases hi : i = .exit
  · subst hi
    cases h
    rfl
  · obtain ⟨_, hP⟩ := exec_keeps_of_ne_exit hi s t h
    exact hP

theorem step_program (h : step s = .next t) : t.program = s.program := by
  have hs := enabled_of_step_eq_next h
  cases hi : fetch s with
  | none =>
    rw [step_of_fetch_none hs hi] at h
    obtain ⟨_, hP⟩ := raise_keeps _ s t h
    exact hP
  | some i =>
    rw [step_of_fetch hs hi] at h
    exact exec_program h

/-! ### The invariant of a run -/

theorem findLabel_lt {P : Program} {n k : Nat} (h : findLabel P n = some k) : k < P.length := by
  obtain ⟨hk, _⟩ := findLabel_eq_some_iff.mp h
  obtain ⟨hlt, _⟩ := List.getElem?_eq_some_iff.mp hk
  exact hlt

/-- Every saved return index of `R` is an index that a CALL of a Program of `n` instructions can save
(R14). -/
def SavedWithin (n : Nat) (R : List Nat) : Prop := ∀ r ∈ R, 1 ≤ r ∧ r ≤ n

theorem Effect.heap_wf (h : Effect s i t) (hH : s.heap.wf) : t.heap.wf := by
  obtain ⟨_, hsame, _⟩ := takeAnswer_same s
  cases h with
  | store | readch | readi => exact Memory.write_wf _ _ _ hH
  | _ => exact hH

theorem Effect.saved_within (h : Effect s i t) (hpc : s.pc < s.program.length)
    (hR : SavedWithin s.program.length s.calls) : SavedWithin s.program.length t.calls := by
  obtain ⟨_, _, hsame, _⟩ := takeAnswer_same s
  cases h with
  | call =>
    intro r hr
    rcases List.mem_append.mp hr with hr | hr
    · exact hR r hr
    · obtain rfl := List.mem_singleton.mp hr
      omega
  | ret hs => exact fun r hr => hR r (hs ▸ List.mem_append_left _ hr)
  | readch | readi => exact fun r hr => hR r (hsame ▸ hr)
  | _ => exact hR

/-- The default advance from a valid index reaches `len(P)` at most; a branch goes to a LABEL of the
Program, and RET to a saved index. -/
theorem Effect.pc_le (h : Effect s i t) (hT : t.terminated = false) (hpc : s.pc < s.program.length)
    (hR : SavedWithin s.program.length s.calls) : t.pc ≤ s.program.length := by
  cases h with
  | call hk | jmp hk | jmpzeroTaken _ hk | jmpnegTaken _ _ hk => exact (findLabel_lt hk).le
  | ret hs =>
    obtain ⟨_, hle⟩ := hR _ (hs ▸ List.mem_append_right _ (List.mem_singleton.mpr rfl))
    exact hle
  | exit => cases hT
  | _ => exact hpc

/-- Settles O37: an effect keeps each part of the invariant, and after a raise only the canonical heap and
the unset `T` are left to show. -/
theorem stepKeepsRunInvariant : Obligations.StepKeepsRunInvariant := by
  intro s t ⟨hH, _, hR, _⟩ h
  have hP := step_program h
  obtain ⟨⟨hT, hF⟩, ⟨i, hi, he⟩ | ⟨k, hk, hT', hH', _⟩⟩ := step_eq_next h
  · obtain ⟨hpc, _⟩ := List.getElem?_eq_some_iff.mp hi
    refine ⟨he.heap_wf hH, fun _ => he.fault.trans hF, fun _ => ?_, fun ⟨hT', _⟩ => ?_⟩
    · rw [hP]
      exact he.saved_within hpc (hR hF)
    · rw [hP]
      exact he.pc_le hT' hpc (hR hF)
  · refine ⟨hH', fun h => ?_, fun h => ?_, fun ⟨_, h⟩ => ?_⟩
    · simp [hT'] at h
    · simp [hk] at h
    · simp [hk] at h

/-- Settles O38: a fresh engine has an empty heap and no saved index, and its `pc` is 0. -/
theorem freshEngineMeetsRunInvariant : Obligations.FreshEngineMeetsRunInvariant := by
  have fresh (P : Program) (answers : List ChanAnswer) :
      ((State.reset.setProgram P).setAnswers answers).Inv :=
    ⟨State.reset_heap_wf, fun _ => rfl, fun _ _ hr => absurd hr List.not_mem_nil, fun _ => Nat.zero_le _⟩
  refine ⟨fresh [] [], fun P answers s hs => ?_⟩
  obtain rfl := construct_eq_some_iff.mp hs
  exact ⟨fresh P answers, rfl, rfl⟩

end Sys2Proof.Machine

/-! ### Whole-machine rules from the outcomes (R24, R42, R112, R121, R122, R136, R173, R204) -/

namespace Sys2Proof.Machine

variable {i : Instr} {s t : State}

/-! ### The label-closed Program (R173) -/

theorem BranchesTo.label_mem {P : Program} {n : Nat} (h : BranchesTo n i) (hi : i ∈ P) (hP : LabelClosed P) :
    Instr.label n ∈ P := by
  apply hP
  rcases h with rfl | rfl | rfl | rfl
  · exact .inl hi
  · exact .inr (.inl hi)
  · exact .inr (.inr (.inl hi))
  · exact .inr (.inr (.inr hi))

/-! ### The obligations on frames and raises -/

theorem changesStackAlone_not_control :
    ∀ op ∈ changesStackAlone, op ∉ [Operation.label, .call, .jmp, .jmpzero, .jmpneg, .ret] := by
  decide

theorem changesStackAlone_not_store_or_io :
    ∀ op ∈ changesStackAlone, op ∉ [Operation.store, .readch, .readi, .writech, .writei] := by
  decide

/-- Settles O29: of these operations an effect is another stack and the advance. -/
theorem stackAndArithmeticFrame : Obligations.StackAndArithmeticFrame := by
  intro i s t hi h
  cases effect_of_completes h with
  | stack => rfl
  | _ => simp [Instr.op] at hi

/-- Settles O30: of these operations an effect is another pc, and what it pops or pushes. -/
theorem controlFrame : Obligations.ControlFrame := by
  intro i s t hi h
  cases effect_of_completes h with
  | label | jmp => exact ⟨rfl, rfl, fun _ => rfl⟩
  | call | ret => exact ⟨rfl, rfl, fun h => absurd h (by simp [Instr.op])⟩
  | jmpzeroTaken hs | jmpzeroNotTaken hs | jmpnegTaken hs | jmpnegNotTaken hs =>
    exact ⟨rfl, by simp [Instr.op, hs], fun _ => rfl⟩
  | stack hstack => exact absurd hi (changesStackAlone_not_control _ hstack)
  | _ => simp [Instr.op] at hi

/-- Settles O31: of these operations an effect leaves the heap, or writes one cell of it. -/
theorem storeAndIoFrame : Obligations.StoreAndIoFrame := by
  intro i s t hi h
  obtain ⟨_, _, hR, _, hT, hF, hP, _⟩ := takeAnswer_same s
  cases effect_of_completes h with
  | @store _ a _ hs =>
    refine ⟨rfl, rfl, rfl, rfl, rfl, by simp [Instr.op, hs], by simp [Instr.op], fun _ => rfl,
      fun _ => ⟨rfl, rfl⟩, fun a' b ha hb => ?_⟩
    obtain rfl : a = a' := by simpa [Instr.op, hs] using ha
    exact Memory.read_write_of_ne _ _ hb
  | @readch _ a _ hs | @readi _ a _ hs =>
    refine ⟨hR, hT, hF, hP, rfl, by simp [Instr.op, hs], by simp [Instr.op], by simp [Instr.op],
      by simp [Instr.op], fun a' b ha hb => ?_⟩
    obtain rfl : a = a' := by simpa [Instr.op, hs] using ha
    exact Memory.read_write_of_ne _ _ hb
  | writech hs | writei hs =>
    exact ⟨rfl, rfl, rfl, rfl, rfl, by simp [Instr.op, hs], fun _ => rfl, by simp [Instr.op],
      fun _ => ⟨rfl, rfl⟩, fun _ _ _ _ => rfl⟩
  | stack hstack => exact absurd hi (changesStackAlone_not_store_or_io _ hstack)
  | _ => simp [Instr.op] at hi

/-- Settles O32: an effect leaves `F` as it was, and a raise is one of the listed. -/
theorem onlyListedFaultsAreRaised : Obligations.OnlyListedFaultsAreRaised := by
  intro i s t k hs h hk
  rcases exec_eq_next h with he | ⟨k', hk', hF, _⟩
  · simp [he.fault, hs] at hk
  · obtain rfl := Option.some.inj (hF.symm.trans hk)
    exact hk'

/-- Settles O33: every operation an instruction is built from keeps the Program. -/
theorem programIsImmutable : Obligations.ProgramIsImmutable :=
  ⟨fun _ _ _ => exec_program, fun _ _ => step_program⟩

/-- Settles O34: the pc of an effect, and the values that the branches test. -/
theorem pcAfterInstruction : Obligations.PcAfterInstruction := by
  intro i s t h
  cases effect_of_completes h with
  | call hk | jmp hk => exact hk
  | jmpzeroTaken hs hk => exact .inl ⟨by simp [hs], hk⟩
  | jmpzeroNotTaken hs hv => exact .inr ⟨by simp [hs, hv], rfl⟩
  | jmpnegTaken hs hv hk => exact ⟨_, by simp [hs], .inl ⟨hv, hk⟩⟩
  | jmpnegNotTaken hs hv => exact ⟨_, by simp [hs], .inr ⟨hv, rfl⟩⟩
  | ret hs => simp [hs]
  | exit => trivial
  | stack hi =>
    cases i with
    | push | dup | swap | pop | copy | drop | add | sub | mul | div | mod | load => rfl
    | _ => simp [Instr.op, changesStackAlone] at hi
  | _ => rfl

/-- Settles O39: an enabled step misses the Program, which is a raise, or has an outcome of its
instruction. -/
theorem enabledStepHasSuccessor : Obligations.EnabledStepHasSuccessor := by
  intro s hs
  cases hi : fetch s with
  | none => exact .inl ⟨_, step_of_fetch_none hs hi⟩
  | some i =>
    rw [step_of_fetch hs hi]
    have ho := exec_outcome i s
    generalize exec i s = o at ho ⊢
    cases ho with
    | next => exact .inl ⟨_, rfl⟩
    | raised => exact .inl ⟨_, rfl⟩
    | stuck hread hne ha => exact .inr ⟨rfl, ha, hne, by simpa using hread⟩

/-- Settles O40: a step is enabled where it has a next state, so the fault of that state is its own raise. -/
theorem noStepAfterEndOrFault : Obligations.NoStepAfterEndOrFault := by
  refine ⟨fun s => step_of_terminated, fun s k => step_of_faulted, fun s t k h hk => ?_⟩
  obtain ⟨⟨_, hF⟩, ⟨i, _, he⟩ | ⟨_, _, hT, _⟩⟩ := step_eq_next h
  · simp [he.fault, hF] at hk
  · exact ⟨hT, step_of_faulted hT hk⟩

/-- Settles O41: `UnresolvedLabel` is raised for a label of the fetched branch that the Program lacks. -/
theorem labelClosedProgramResolves : Obligations.LabelClosedProgramResolves := by
  intro s t hclosed h hk
  obtain ⟨⟨_, hF⟩, ⟨i, _, he⟩ | ⟨k, hk', _, _, hlabel⟩⟩ := step_eq_next h
  · simp [he.fault, hF] at hk
  · obtain ⟨i, n, hi, hn, hlacks⟩ := hlabel (Option.some.inj (hk'.symm.trans hk))
    exact hlacks (hn.label_mem (List.mem_of_getElem? hi) hclosed)

end Sys2Proof.Machine

/-! ### Decoding one instruction anywhere in a buffer (R57, R81 to R84, R86, R89) -/

namespace Sys2Proof

open Machine

/-- Settles O49: an emitted encoding is one of the strings that decode to its instruction. The push of 0
has the two signs. -/
theorem decodeEncodeInstruction : Obligations.DecodeEncodeInstruction := by
  refine ⟨fun i => ?_, fun i x y => ?_,
    [.A, .A, .A, .C], [.A, .A, .B, .C], 4, 4, .push 0, by decide, by decide, by decide⟩
  · exact decodeBinary_ok_iff.mpr ⟨_, [], (List.append_nil _).symm, rfl, encodes_encodeBinary i⟩
  · refine decodeBinary_ok_iff.mpr ⟨_, y, ?_, rfl, encodes_encodeBinary i⟩
    rw [List.append_assoc, List.drop_left]

end Sys2Proof

/-! ### What instructions do not see (R130, R131)

A change of the state that no shared operation sees passes through every instruction: it makes no
difference whether it comes before the instruction or after. -/

namespace Sys2Proof.Machine

variable {s t : State}

/-- `g` changes nothing that an operation reads, and it commutes with what the operations change. -/
structure Unseen (g : State → State) : Prop where
  stack : ∀ s, (g s).stack = s.stack
  heap : ∀ s, (g s).heap = s.heap
  calls : ∀ s, (g s).calls = s.calls
  pc : ∀ s, (g s).pc = s.pc
  program : ∀ s, (g s).program = s.program
  setStack : ∀ s S, (g s).setStack S = g (s.setStack S)
  setHeap : ∀ s H, (g s).setHeap H = g (s.setHeap H)
  setCalls : ∀ s R, (g s).setCalls R = g (s.setCalls R)
  setPc : ∀ s k, (g s).setPc k = g (s.setPc k)
  record : ∀ s e, (g s).record e = g (s.record e)
  raise_passes : ∀ k s, raise k (g s) = mapNext g (raise k s)
  terminate_passes : ∀ s, terminate (g s) = mapNext g (terminate s)

/-- `g` before `f` is `g` after `f`. -/
def PassesThrough (g : State → State) (f : State → Outcome) : Prop := ∀ s, f (g s) = mapNext g (f s)

/-- Using up an answer passes `g` on. -/
def UnseenByReads (g : State → State) : Prop :=
  ∀ s, takeAnswer (g s) = ((takeAnswer s).1, g (takeAnswer s).2)

section

variable {g : State → State} (hg : Unseen g)
include hg

theorem Unseen.advance_passes : PassesThrough g advance := by
  intro s
  simp only [advance, hg.pc, hg.setPc, mapNext]

theorem Unseen.branchToLabel_passes (n : Nat) : PassesThrough g (branchToLabel n) := by
  intro s
  rcases branchToLabel_cases n s with ⟨hk, h⟩ | ⟨k, hk, h⟩
  · rw [h, branchToLabel_of_none (by rw [hg.program, hk]), hg.raise_passes]
  · rw [h, branchToLabel_of_some (by rw [hg.program, hk]), hg.setPc, mapNext]

theorem Unseen.push_passes {rest : State → Outcome} (hrest : PassesThrough g rest) (v : Int) :
    PassesThrough g fun s => push v s rest := by
  intro s
  simp only [push_eq, hg.stack, hg.setStack, hrest _]

theorem Unseen.memWrite_passes {rest : State → Outcome} (hrest : PassesThrough g rest) (a v : Int) :
    PassesThrough g fun s => memWrite a v s rest := by
  intro s
  simp only [memWrite_eq, hg.heap, hg.setHeap, hrest _]

theorem Unseen.pop_passes {rest : Int → State → Outcome} (hrest : ∀ v, PassesThrough g (rest v)) :
    PassesThrough g fun s => pop s rest := by
  intro s
  dsimp only
  rcases pop_cases s rest with ⟨hs, h⟩ | ⟨xs, v, hs, h⟩
  · rw [h, pop_of_empty (by rw [hg.stack, hs]), hg.raise_passes]
  · rw [h, pop_of_stack (by rw [hg.stack, hs]), hg.setStack, hrest]

theorem Unseen.popTwo_passes {rest : Int → Int → State → Outcome} (hrest : ∀ a b, PassesThrough g (rest a b)) :
    PassesThrough g fun s => popTwo s rest :=
  hg.pop_passes fun b => hg.pop_passes fun a => hrest a b

theorem Unseen.rpop_passes {rest : Nat → State → Outcome} (hrest : ∀ k, PassesThrough g (rest k)) :
    PassesThrough g fun s => rpop s rest := by
  intro s
  dsimp only
  rcases rpop_cases s rest with ⟨hs, h⟩ | ⟨rs, k, hs, h⟩
  · rw [h, rpop_of_empty (by rw [hg.calls, hs]), hg.raise_passes]
  · rw [h, rpop_of_calls (by rw [hg.calls, hs]), hg.setCalls, hrest]

theorem Unseen.record_advance_passes (e : Event) : PassesThrough g fun s => advance (s.record e) := by
  intro s
  simp only [hg.record, hg.advance_passes _]

theorem Unseen.chanRead_passes (hread : UnseenByReads g) {rest : Int → State → Outcome}
    (hrest : ∀ v, PassesThrough g (rest v)) (mk : Int → Event) :
    PassesThrough g fun s => chanRead mk s rest := by
  intro s
  simp only [chanRead, hread s]
  cases (takeAnswer s).1 with
  | value v => simp only [hg.record, hrest _ _]
  | fail => exact hg.raise_passes _ _
  | silent => rfl

theorem Unseen.read_passes (hread : UnseenByReads g) (mk : Int → Event) :
    PassesThrough g fun s => pop s fun a t => chanRead mk t fun v t => memWrite a v t advance :=
  hg.pop_passes fun a => hg.chanRead_passes hread (hg.memWrite_passes hg.advance_passes a) mk

theorem Unseen.if_raise_passes (c : Prop) [Decidable c] (k : RuntimeFault) {f : State → Outcome}
    (hf : PassesThrough g f) : PassesThrough g fun s => if c then raise k s else f s := by
  intro s
  dsimp only
  split
  · exact hg.raise_passes k s
  · exact hf s

theorem Unseen.division_passes (f : Int → Int → Int) :
    PassesThrough g fun s => popTwo s fun a b t =>
      if b = 0 then raise .divideByZero t else push (f a b) t advance :=
  hg.popTwo_passes fun a b => hg.if_raise_passes (b = 0) _ (hg.push_passes hg.advance_passes (f a b))

theorem Unseen.branchIf_passes (c : Bool) (n : Nat) :
    PassesThrough g fun s => if c then branchToLabel n s else advance s := by
  cases c with
  | true => exact hg.branchToLabel_passes n
  | false => exact hg.advance_passes

theorem Unseen.copy_passes (n : Int) : PassesThrough g (exec (.copy n)) := by
  intro s
  rcases elementAtDepth_cases s.stack n with ⟨_, h⟩ | ⟨v, _, _, _, h⟩
  · rw [exec_copy_of_none h, exec_copy_of_none (by rw [hg.stack, h]), hg.raise_passes]
  · rw [exec_copy_of_some h, exec_copy_of_some (by rw [hg.stack, h]), hg.stack, hg.pc, hg.setStack, hg.setPc, mapNext]

theorem Unseen.drop_passes (n : Int) : PassesThrough g (exec (.drop n)) := by
  intro s
  rcases slideUnderTop_cases s.stack n with ⟨_, h⟩ | ⟨_, _, h⟩
  · rw [exec_drop_of_none h, exec_drop_of_none (by rw [hg.stack, h]), hg.raise_passes]
  · rw [exec_drop_of_some h, exec_drop_of_some (by rw [hg.stack, h]), hg.pc, hg.setStack, hg.setPc, mapNext]

theorem Unseen.call_passes (n : Nat) : PassesThrough g (exec (.call n)) := by
  intro s
  rw [exec_call, exec_call, hg.calls, hg.pc, hg.setCalls, hg.branchToLabel_passes n]

theorem Unseen.load_passes : PassesThrough g fun s => pop s fun a t => push (memRead a t) t advance := by
  refine hg.pop_passes fun a s => ?_
  rw [memRead, memRead, hg.heap]
  exact hg.push_passes hg.advance_passes _ s

/-- What the operations do not see, no instruction sees; a read must pass it on as well. -/
theorem Unseen.exec_passes (i : Instr) (hread : i.op ∈ [Operation.readch, .readi] → UnseenByReads g) :
    PassesThrough g (exec i) := by
  cases i with
  | readch => exact hg.read_passes (hread (by decide)) _
  | readi => exact hg.read_passes (hread (by decide)) _
  | writech => exact hg.pop_passes fun v => hg.record_advance_passes _
  | writei => exact hg.pop_passes fun v => hg.record_advance_passes _
  | push v => exact hg.push_passes hg.advance_passes v
  | dup => exact hg.pop_passes fun a => hg.push_passes (hg.push_passes hg.advance_passes a) a
  | swap => exact hg.popTwo_passes fun b a => hg.push_passes (hg.push_passes hg.advance_passes b) a
  | pop => exact hg.pop_passes fun _ => hg.advance_passes
  | copy n => exact hg.copy_passes n
  | drop n => exact hg.drop_passes n
  | add => exact hg.popTwo_passes fun a b => hg.push_passes hg.advance_passes (a + b)
  | sub => exact hg.popTwo_passes fun a b => hg.push_passes hg.advance_passes (a - b)
  | mul => exact hg.popTwo_passes fun a b => hg.push_passes hg.advance_passes (a * b)
  | div => exact hg.division_passes tdiv
  | mod => exact hg.division_passes tmod
  | label n => exact hg.advance_passes
  | call n => exact hg.call_passes n
  | jmp n => exact hg.branchToLabel_passes n
  | jmpzero n => exact hg.pop_passes fun v => hg.branchIf_passes (testZero v) n
  | jmpneg n => exact hg.pop_passes fun v => hg.branchIf_passes (testNegative v) n
  | ret => exact hg.rpop_passes fun k s => by rw [jumpTo, jumpTo, hg.setPc, mapNext]
  | exit => exact hg.terminate_passes
  | store => exact hg.popTwo_passes fun a v => hg.memWrite_passes hg.advance_passes a v
  | load => exact hg.load_passes

end

/-! ### The answers -/

theorem setAnswers_unseen (as : List ChanAnswer) : Unseen fun s => s.setAnswers as := by
  constructor <;> intros <;> rfl

/-- Settles O36: only a read looks at the answers. -/
theorem onlyReadsDependOnAnswers : Obligations.OnlyReadsDependOnAnswers :=
  fun i s as hi => (setAnswers_unseen as).exec_passes i (fun h => absurd h hi) s

/-! ### The trace -/

/-- Events put before the trace: an append at its end, which is all that happens to it, does not see them. -/
def prependTrace (es : List Event) (s : State) : State := s.setTrace (es ++ s.trace)

theorem prependTrace_record (es : List Event) (s : State) (e : Event) :
    (prependTrace es s).record e = prependTrace es (s.record e) := by
  simp [prependTrace, State.record, State.setTrace]

theorem prependTrace_unseen (es : List Event) : Unseen (prependTrace es) := by
  constructor
  case record => exact prependTrace_record es
  all_goals intros; rfl

theorem prependTrace_unseenByReads (es : List Event) : UnseenByReads (prependTrace es) := by
  intro s
  unfold takeAnswer
  rw [show (prependTrace es s).answers = s.answers from rfl]
  cases s.answers <;> rfl

/-- With any trace an instruction does what it does with the empty trace. -/
theorem exec_setTrace (i : Instr) (s : State) (es : List Event) :
    exec i (s.setTrace es) = mapNext (prependTrace es) (exec i (s.setTrace [])) := by
  have h := (prependTrace_unseen es).exec_passes i (fun _ => prependTrace_unseenByReads es) (s.setTrace [])
  rwa [prependTrace, State.setTrace_setTrace, State.setTrace_trace, List.append_nil] at h

theorem Effect.trace {i : Instr} (h : Effect s i t) :
    ∃ new : List Event, t.trace = s.trace ++ new ∧ new.length ≤ 1 ∧
      (i.op ∉ [Operation.readch, .readi, .writech, .writei] → new = []) := by
  obtain ⟨_, _, _, _, _, _, _, htrace⟩ := takeAnswer_same s
  cases h with
  | readch | readi => exact ⟨[_], congrArg (· ++ [_]) htrace, le_rfl, by simp [Instr.op]⟩
  | writech | writei => exact ⟨[_], rfl, le_rfl, by simp [Instr.op]⟩
  | _ => exact ⟨[], (List.append_nil _).symm, Nat.zero_le 1, fun _ => rfl⟩

theorem exec_trace {i : Instr} (h : exec i s = .next t) :
    ∃ new : List Event, t.trace = s.trace ++ new ∧ new.length ≤ 1 ∧
      (i.op ∉ [Operation.readch, .readi, .writech, .writei] → new = []) := by
  rcases exec_eq_next h with he | ⟨_, _, _, _, htrace, _⟩
  · exact he.trace
  · exact ⟨[], by simp [htrace], Nat.zero_le 1, fun _ => rfl⟩

/-- Settles O35: the new events are those of the instruction run with the empty trace. -/
theorem traceIsWriteOnly : Obligations.TraceIsWriteOnly := by
  intro i s
  have hs := exec_setTrace i s s.trace
  rw [show s.setTrace s.trace = s from rfl] at hs
  cases ho : exec i (s.setTrace []) with
  | next u =>
    obtain ⟨new, hnew, hlen, hio⟩ := exec_trace ho
    rw [ho] at hs
    refine ⟨new, hlen, hio, fun t ht => ?_, fun es => ?_⟩
    · cases hs.symm.trans ht
      simp [prependTrace, hnew]
    · rw [hs, exec_setTrace, ho]
      simp [mapNext, prependTrace, hnew]
  | fault r | refused r =>
    rw [ho] at hs
    refine ⟨[], Nat.zero_le 1, fun _ => rfl, fun t ht => ?_, fun es => ?_⟩
    · cases hs.symm.trans ht
    · rw [hs, exec_setTrace, ho]
      rfl

end Sys2Proof.Machine

/-! ### The sequencer: placing, running, the label index (R110, R117, R120, R232) -/

namespace Sys2Proof.Machine

variable {s t : State}

/-! ### Placing an instruction -/

theorem getElem?_placeAt (P : Program) (k : Nat) (i : Instr) : (placeAt P k i)[k]? = some i := by
  have hlen : (P.take k ++ List.replicate (k - P.length) i).length = k := by
    rw [List.length_append, List.length_take, List.length_replicate]
    omega
  rw [placeAt, List.getElem?_append_right hlen.le, hlen, Nat.sub_self, List.getElem?_cons_zero]

/-- Settles O43: the placed instruction stands at `pc`, and the state is enabled. -/
theorem stepRunsFetchedInstruction : Obligations.StepRunsFetchedInstruction := by
  refine ⟨fun s i => step_of_fetch, fun s nbits w i hi => ?_⟩
  have hs : s.withFetchWord nbits w =
      ((s.setProgram (placeAt s.program s.pc i)).setTerminated false).setFault none := by
    rw [State.withFetchWord, hi]
  rw [hs]
  exact step_of_fetch ⟨rfl, rfl⟩ (getElem?_placeAt s.program s.pc i)

/-! ### An engine from bytes -/

/-- A Program that assembles starts with the instruction that its symbols start with. -/
theorem getElem?_zero_of_assemble {bytes : List Byte} {P : Program} {l : Nat} {i : Instr} (hP : assemble bytes = .ok P)
    (hi : decodeBinary (strip bytes) 0 = .ok (l, i)) : P[0]? = some i := by
  obtain ⟨w, rest, hbuf, _, hw⟩ := decodeBinary_ok_iff.mp hi
  rw [List.drop_zero] at hbuf
  have hprog := assemble_ok_iff.mp hP
  rw [hbuf] at hprog
  generalize hy : w ++ rest = y at hprog
  cases hprog with
  | nil =>
    obtain ⟨rfl, _⟩ := List.append_eq_nil_iff.mp hy
    exact absurd hw.length_pos (Nat.lt_irrefl 0)
  | cons hw' _ =>
    obtain ⟨rfl, _⟩ := hw.eq_of_append_eq hw' hy
    rfl

theorem constructFromBytes_ok_iff {bytes : List Byte} {answers : List ChanAnswer} :
    constructFromBytes bytes answers = .ok (some s) ↔
      ∃ P, assemble bytes = .ok P ∧ s = (State.reset.setProgram P).setAnswers answers := by
  unfold constructFromBytes
  cases assemble bytes with
  | error e => simp
  | ok P => simp [construct_eq_some_iff]

/-- Settles O45: the bound Program starts with the instruction decoded first, and a fresh engine is enabled
at `pc = 0`. -/
theorem firstStepRunsFirstDecoded : Obligations.FirstStepRunsFirstDecoded := by
  intro bytes answers s l i hs hi
  obtain ⟨P, hP, rfl⟩ := constructFromBytes_ok_iff.mp hs
  exact step_of_fetch ⟨rfl, rfl⟩ (getElem?_zero_of_assemble hP hi)

/-! ### The label index -/

theorem findLabel_cons (i : Instr) (P : Program) (n : Nat) :
    findLabel (i :: P) n = if i = .label n then some 0 else (findLabel P n).map (· + 1) := by
  simp [findLabel, List.findIdx?_cons]

/-- The index counts from where the instructions stand; the scan counts from 0. -/
theorem lookupLabel_labelIndexFrom (P : Program) (k n : Nat) :
    lookupLabel (labelIndexFrom k P) n = (findLabel P n).map (· + k) := by
  induction P generalizing k with
  | nil => rfl
  | cons i P ih =>
    have hshift : lookupLabel (labelIndexFrom (k + 1) P) n = ((findLabel P n).map (· + 1)).map (· + k) := by
      rw [ih, Option.map_map]
      exact congrArg (Option.map · (findLabel P n)) (funext fun j => by simp only [Function.comp]; omega)
    rw [findLabel_cons]
    cases i with
    | label m =>
      have hentry : labelIndexFrom k (.label m :: P) = (m, k) :: labelIndexFrom (k + 1) P := rfl
      rw [hentry, lookupLabel]
      by_cases hm : m = n
      · simp [hm]
      · simp [hm, hshift]
    | _ => exact hshift

/-- Settles O47: the index of the whole Program counts from 0. -/
theorem labelIndexEqualsScan : Obligations.LabelIndexEqualsScan := by
  intro P n
  rw [labelIndex, lookupLabel_labelIndexFrom]
  simp

/-! ### The run -/

theorem run_of_terminated (h : s.terminated = true) (fuel : Nat) : run fuel s = .terminated s := by
  cases fuel <;> simp [run, h]

theorem run_of_faulted {k : RuntimeFault} (hT : s.terminated = false) (hF : s.fault = some k) (fuel : Nat) :
    run fuel s = .faulted k s := by
  cases fuel <;> simp [run, hT, hF]

theorem run_zero_of_enabled (h : Enabled s) : run 0 s = .running s := by
  obtain ⟨hT, hF⟩ := h
  simp [run, hT, hF]

theorem run_succ_of_next (h : step s = .next t) (fuel : Nat) : run (fuel + 1) s = run fuel t := by
  obtain ⟨hT, hF⟩ := enabled_of_step_eq_next h
  simp [run, hT, hF, h]

theorem run_succ_of_fault {r : Fault} (hs : Enabled s) (h : step s = .fault r) (fuel : Nat) :
    run (fuel + 1) s = .stuck r := by
  obtain ⟨hT, hF⟩ := hs
  simp [run, hT, hF, h]

/-- What a run does from `s`, whatever its fuel: it has ended, or it needs fuel for a step, which has a
next state or is stuck. -/
theorem run_cases (s : State) :
    (s.terminated = true ∧ ∀ fuel, run fuel s = .terminated s) ∨
    (∃ k, s.terminated = false ∧ s.fault = some k ∧ ∀ fuel, run fuel s = .faulted k s) ∨
    (run 0 s = .running s ∧
      ((∃ t, ∀ fuel, run (fuel + 1) s = run fuel t) ∨ ∃ r, ∀ fuel, run (fuel + 1) s = .stuck r)) := by
  cases hT : s.terminated with
  | true => exact .inl ⟨rfl, run_of_terminated hT⟩
  | false =>
    cases hF : s.fault with
    | some k => exact .inr (.inl ⟨k, rfl, rfl, run_of_faulted hT hF⟩)
    | none =>
      refine .inr (.inr ⟨run_zero_of_enabled ⟨hT, hF⟩, ?_⟩)
      rcases enabledStepHasSuccessor s ⟨hT, hF⟩ with ⟨t, ht⟩ | ⟨hr, _⟩
      · exact .inl ⟨t, run_succ_of_next ht⟩
      · exact .inr ⟨_, run_succ_of_fault ⟨hT, hF⟩ hr⟩

/-- What the end of a run says of its state (R120). -/
def RunEnd.Holds : RunEnd → Prop
  | .terminated t => t.terminated = true
  | .faulted k t => t.terminated = false ∧ t.fault = some k
  | .stuck _ => True
  | .running _ => True
  | .refused _ => False

theorem run_holds (fuel : Nat) (s : State) : (run fuel s).Holds := by
  induction fuel generalizing s with
  | zero =>
    rcases run_cases s with ⟨hT, h⟩ | ⟨k, hT, hF, h⟩ | ⟨h, _⟩
    · exact h 0 ▸ hT
    · exact h 0 ▸ ⟨hT, hF⟩
    · exact h ▸ trivial
  | succ fuel ih =>
    rcases run_cases s with ⟨hT, h⟩ | ⟨k, hT, hF, h⟩ | ⟨_, ⟨t, h⟩ | ⟨r, h⟩⟩
    · exact h (fuel + 1) ▸ hT
    · exact h (fuel + 1) ▸ ⟨hT, hF⟩
    · exact h fuel ▸ ih t
    · exact h fuel ▸ trivial

theorem run_add_of_ended (fuel more : Nat) (s : State) (h : ∀ t, run fuel s ≠ .running t) :
    run (fuel + more) s = run fuel s := by
  induction fuel generalizing s with
  | zero =>
    rcases run_cases s with ⟨_, hs⟩ | ⟨k, _, _, hs⟩ | ⟨hs, _⟩
    · rw [hs, hs]
    · rw [hs, hs]
    · exact absurd hs (h s)
  | succ fuel ih =>
    rw [Nat.succ_add]
    rcases run_cases s with ⟨_, hs⟩ | ⟨k, _, _, hs⟩ | ⟨_, ⟨t, hs⟩ | ⟨r, hs⟩⟩
    · rw [hs, hs]
    · rw [hs, hs]
    · simp only [hs] at h ⊢
      exact ih t h
    · rw [hs, hs]

/-- Settles O42: fuel is used up on steps that have a next state, and the run looks at `T` and `F` before
each. -/
theorem runEndsFinalOrFaulted : Obligations.RunEndsFinalOrFaulted := by
  refine ⟨fun fuel s r h => ?_, fun fuel s t h => ?_, fun fuel s t k h => ?_, run_add_of_ended⟩
  all_goals
    have hend := run_holds fuel s
    rw [h] at hend
    exact hend

end Sys2Proof.Machine

/-! ### Reads, COPY and DROP, remainders, conditional jumps, the heap (R12, R132, R145, R152, R173) -/

namespace Sys2Proof.Machine

variable {s : State}

/-! ### Channel reads -/

/-- An instruction that pops an address, reads the channel and writes what it got. -/
theorem stores_read_of_exec_eq {i : Instr} {mk : Int → Event}
    (hi : ∀ s, exec i s = pop s fun a t => chanRead mk t fun v t => memWrite a v t advance) :
    (∀ s xs a v, s.stack = xs ++ [a] → (takeAnswer s).1 = .value v →
      ∃ t, exec i s = .next t ∧ t.heap.read a = v ∧ (∀ b, b ≠ a → t.heap.read b = s.heap.read b) ∧
        t = (((((takeAnswer s).2.setStack xs).setHeap t.heap).record (mk v)).setPc (s.pc + 1))) ∧
    (∀ s, s.stack = [] → Raises .stackUnderflow s (exec i s) ∧
      ∀ t, exec i s = .next t → t.answers = s.answers) ∧
    (∀ s, s.stack ≠ [] → (takeAnswer s).1 = .fail → Raises .ioFailure s (exec i s)) ∧
    (∀ s, s.stack ≠ [] → (takeAnswer s).1 = .silent → exec i s = .fault .channelNeverAnswers) := by
  refine ⟨fun s xs a v hs hv => ?_, fun s hs => ?_, fun s hs ha => ?_, fun s hs ha => ?_⟩
  · rw [hi, pop_of_stack hs, chanRead_memWrite_of_value a hv]
    exact ⟨_, rfl, Memory.read_write_same s.heap a v, fun b => Memory.read_write_of_ne s.heap v, rfl⟩
  · rw [hi, pop_of_empty hs]
    refine ⟨raise_raises _ s, fun t ht => ?_⟩
    obtain ⟨_, _, _, _, hanswers, _⟩ := raise_eq_next ht
    exact hanswers
  · obtain ⟨xs, a, hs⟩ := (List.eq_nil_or_concat' s.stack).resolve_left hs
    obtain ⟨_, _, _, _, hT, _, hP, ht⟩ := takeAnswer_same s
    rw [hi, pop_of_stack hs, chanRead_setStack_of_fail ha]
    exact (raise_raises _ _).of_same hT ht hP
  · obtain ⟨xs, a, hs⟩ := (List.eq_nil_or_concat' s.stack).resolve_left hs
    rw [hi, pop_of_stack hs, chanRead_setStack_of_silent ha]

/-- Settles O2: READCH is a channel read recorded as a character. -/
theorem readchStoresChannelCharacter : Obligations.ReadchStoresChannelCharacter :=
  stores_read_of_exec_eq exec_readch

/-- Settles O3: READI is a channel read recorded as an integer. -/
theorem readiStoresChannelInteger : Obligations.ReadiStoresChannelInteger :=
  stores_read_of_exec_eq exec_readi

/-! ### COPY and DROP -/

theorem exec_copy_raises {n : Int} (h : n < 0 ∨ (s.stack.length : Int) ≤ n) :
    Raises .copyOutOfRange s (exec (.copy n) s) := by
  rcases elementAtDepth_cases s.stack n with ⟨_, hnone⟩ | ⟨_, h0, hlen, _⟩
  · exact exec_copy_of_none hnone ▸ raise_raises _ s
  · omega

/-- Settles O10: the element with `ys` above it has depth `len(ys)`. -/
theorem copyPushesElementAtDepth : Obligations.CopyPushesElementAtDepth :=
  ⟨fun _ _ _ _ => exec_copy_of_stack, fun _ _ h => exec_copy_raises (.inr h),
    fun _ _ h => exec_copy_raises (.inl h)⟩

theorem exec_drop_raises {n : Int} (h : n < 0 ∨ (s.stack.length : Int) < n + 1) :
    Raises .dropOutOfRange s (exec (.drop n) s) := by
  rcases slideUnderTop_cases s.stack n with ⟨_, hnone⟩ | ⟨h0, hlen, _⟩
  · exact exec_drop_of_none hnone ▸ raise_raises _ s
  · omega

theorem slideUnderTop_append (xs ys : List Int) (top : Int) :
    slideUnderTop (xs ++ ys ++ [top]) ys.length = some (xs ++ [top]) := by
  have hlen : (xs ++ ys ++ [top]).length = xs.length + ys.length + 1 := by simp [Nat.add_assoc]
  have htake : (xs ++ ys ++ [top]).take xs.length = xs := by simp
  have hdrop : (xs ++ ys ++ [top]).drop (xs.length + ys.length) = [top] := by
    rw [← List.length_append, List.drop_left]
  rcases slideUnderTop_cases (xs ++ ys ++ [top]) ys.length with ⟨hout, _⟩ | ⟨_, _, h⟩
  · omega
  · rw [h, hlen, Int.toNat_natCast, Nat.add_sub_cancel, Nat.add_sub_cancel, htake, hdrop]

/-- Settles O11: what stays is what is below the `n` elements, and the top. -/
theorem dropSlidesUnderTop : Obligations.DropSlidesUnderTop := by
  refine ⟨fun s xs ys top hs => exec_drop_of_some ?_, fun _ _ h => exec_drop_raises (.inr h),
    fun _ _ h => exec_drop_raises (.inl h)⟩
  rw [hs, slideUnderTop_append]

/-! ### The remainder (R152) -/

theorem tmod_eq_int_tmod (a b : Int) : tmod a b = Int.tmod a b := by
  rw [tmod, tdiv_eq_int_tdiv, Int.tmod_def, mul_comm]

/-- Settles O16: MOD pushes the model's `tmod`, which is Lean's truncated remainder. -/
theorem modLeavesTruncatedRemainder : Obligations.ModLeavesTruncatedRemainder := by
  obtain ⟨hremainder, hzero, hunderflow⟩ := leaves_quotient_of_exec_eq exec_mod
  refine ⟨fun s xs a b hs hb => ?_, hzero, hunderflow⟩
  rw [hremainder s xs a b hs hb, tmod_eq_int_tmod]

theorem int_tmod_nonpos {a : Int} (b : Int) (h : a ≤ 0) : Int.tmod a b ≤ 0 := by
  have hneg := Int.tmod_nonneg b (neg_nonneg.mpr h)
  rw [Int.neg_tmod] at hneg
  exact neg_nonneg.mp hneg

/-- The floored modulus of two operands of the same sign, and of a multiple, is the truncated one. -/
theorem int_fmod_eq_tmod {a b : Int} (h : (0 ≤ a ∧ 0 < b) ∨ (a ≤ 0 ∧ b < 0) ∨ Int.tmod a b = 0) :
    Int.fmod a b = Int.tmod a b := by
  rcases h with ⟨ha, hb⟩ | ⟨ha, hb⟩ | h0
  · exact Int.fmod_eq_tmod_of_nonneg ha hb.le
  · have hneg := Int.fmod_eq_tmod_of_nonneg (neg_nonneg.mpr ha) (neg_nonneg.mpr hb.le)
    rwa [Int.neg_fmod_neg, Int.neg_tmod, Int.tmod_neg, neg_inj] at hneg
  · rw [h0, Int.fmod_eq_zero_of_dvd (Int.dvd_of_tmod_eq_zero h0)]

/-- Settles O17: the laws are those of Lean's truncated quotient and remainder. -/
theorem quotientAndRemainderLaws : Obligations.QuotientAndRemainderLaws := by
  intro a b hb
  have hpair : a = tdiv a b * b + tmod a b := by
    rw [tmod]
    ring
  rw [tdiv_eq_int_tdiv, tmod_eq_int_tmod] at hpair ⊢
  refine ⟨rfl, ?_, hpair, ?_, fun hpos => ?_, fun hneg => ?_, int_fmod_eq_tmod⟩
  · rw [Int.natAbs_tdiv]
    exact Nat.div_mul_le_self _ _
  · rw [Int.natAbs_tmod]
    exact Nat.mod_lt _ (Int.natAbs_pos.mpr hb)
  · by_contra ha
    exact absurd (int_tmod_nonpos b (not_lt.mp ha)) hpos.not_ge
  · by_contra ha
    exact absurd (Int.tmod_nonneg b (not_lt.mp ha)) hneg.not_ge

/-! ### The conditional jumps -/

/-- Settles O21: the scan of R116 runs only after the popped value tested as 0. -/
theorem jmpzeroBranchesOnZero : Obligations.JmpzeroBranchesOnZero := by
  refine ⟨fun n s xs k hs hk => ?_, fun n s xs v hs hv => ?_, fun n s xs hs hn => ?_, fun n s hs => ?_⟩
  · rw [exec_jmpzero, pop_of_stack hs]
    exact branchToLabel_of_some hk
  · rw [exec_jmpzero, pop_of_stack hs, if_neg (by simpa [testZero] using hv)]
    rfl
  · rw [exec_jmpzero, pop_of_stack hs]
    exact Raises.of_same (u := s.setStack xs) (branchToLabel_raises_of_notMem hn) rfl rfl rfl
  · exact exec_jmpzero n s ▸ pop_raises_of_empty hs _

/-- Settles O22: the scan of R116 runs only after the popped value tested as negative. -/
theorem jmpnegBranchesOnNegative : Obligations.JmpnegBranchesOnNegative := by
  refine ⟨fun n s xs v k hs hv hk => ?_, fun n s xs v hs hv => ?_, fun n s xs v hs hv hn => ?_, fun n s hs => ?_⟩
  · rw [exec_jmpneg, pop_of_stack hs, if_pos (by simpa [testNegative] using hv)]
    exact branchToLabel_of_some hk
  · rw [exec_jmpneg, pop_of_stack hs, if_neg (by simpa [testNegative] using hv)]
    rfl
  · rw [exec_jmpneg, pop_of_stack hs, if_pos (by simpa [testNegative] using hv)]
    exact Raises.of_same (u := s.setStack xs) (branchToLabel_raises_of_notMem hn) rfl rfl rfl
  · exact exec_jmpneg n s ▸ pop_raises_of_empty hs _

/-! ### The heap -/

/-- Settles O27: the last cell of an address is the one listed, if it holds no 0. -/
theorem heapReadsBackLastWrite : Obligations.HeapReadsBackLastWrite :=
  ⟨Memory.read_write_same, fun H _ _ v => Memory.read_write_of_ne H v, Memory.read_nil⟩

theorem Memory.mem_of_read {H : Memory} {a v : Int} (hv : v ≠ 0) (h : H.read a = v) : (a, v) ∈ H := by
  induction H with
  | nil => exact absurd h.symm hv
  | cons c H ih =>
    rw [Memory.read_cons] at h
    split at h
    · next hc => simp [← hc, ← h]
    · exact List.mem_cons_of_mem c (ih h)

/-- With one cell to an address, a read finds the cell that is listed. -/
theorem Memory.read_of_mem {H : Memory} {a v : Int} (hH : H.Pairwise fun c d => c.1 < d.1) (h : (a, v) ∈ H) :
    H.read a = v := by
  induction H with
  | nil => simp at h
  | cons c H ih =>
    obtain ⟨hc, hH⟩ := List.pairwise_cons.mp hH
    rw [Memory.read_cons]
    rcases List.mem_cons.mp h with rfl | h
    · exact if_pos rfl
    · rw [if_neg (hc _ h).ne, ih hH h]

/-- The cells of a canonical heap are what it reads as, other than 0 (R12). -/
theorem Memory.mem_iff_read {H : Memory} (hH : H.wf) (a v : Int) : (a, v) ∈ H ↔ v ≠ 0 ∧ H.read a = v := by
  obtain ⟨hrising, hnonzero⟩ := hH
  exact ⟨fun h => ⟨hnonzero _ h, Memory.read_of_mem hrising h⟩, fun ⟨hv, h⟩ => Memory.mem_of_read hv h⟩

/-- Settles O28: equal reads give the same cells, and rising addresses fix their order. -/
theorem canonicalHeapsAreEqualData : Obligations.CanonicalHeapsAreEqualData := by
  intro H K hH hK h
  have hmem (c : Int × Int) : c ∈ H ↔ c ∈ K := by
    rw [Memory.mem_iff_read hH, Memory.mem_iff_read hK, h]
  obtain ⟨hHrising, _⟩ := hH
  obtain ⟨hKrising, _⟩ := hK
  have hanti : Std.Antisymm fun c d : Int × Int => c.1 < d.1 := ⟨fun _ _ h h' => absurd h' h.not_gt⟩
  have hirrefl : Std.Irrefl fun c d : Int × Int => c.1 < d.1 := ⟨fun c => lt_irrefl c.1⟩
  exact hHrising.eq_of_mem_iff hKrising hmem

end Sys2Proof.Machine

/-! ### Decoding anywhere in a buffer (R56, R57, R61, R81 to R84, R86, R87, R92) -/

namespace Sys2Proof

open Machine

/-! ### Integer fields -/

theorem decodeUInt_encodeUInt (v : Nat) (x y : List Symbol) :
    decodeUInt (x ++ encodeUInt v ++ y) x.length = .ok ((encodeUInt v).length, v) := by
  refine decodeUInt_ok_iff.mpr ⟨binaryDigits v v, y, ?_, C_notMem_binaryDigits v v, by simp [encodeUInt],
    (digitsFrom_binaryDigits le_rfl).symm⟩
  rw [List.append_assoc, List.drop_left, encodeUInt, List.append_assoc, List.singleton_append]

theorem decodeSInt_encodeSInt (v : Int) (x y : List Symbol) :
    decodeSInt (x ++ encodeSInt v ++ y) x.length = .ok ((encodeSInt v).length, v) := by
  refine decodeSInt_ok_iff.mpr ⟨encodeSInt v, y, ?_, rfl, operandField_sint v⟩
  rw [List.append_assoc, List.drop_left]

theorem encodeSInt_natCast (v : Nat) : encodeSInt v = .A :: encodeUInt v := by
  simp [encodeSInt]

theorem encodeSInt_neg_natCast {v : Nat} (h : 0 < v) : encodeSInt (-(v : Int)) = .B :: encodeUInt v := by
  rw [encodeSInt, if_neg (by omega), neg_neg, Int.toNat_natCast]

/-- Settles O48: the emitted field has its value, and the emitted digits have no leading `A`. -/
theorem integerFieldsRoundTrip : Obligations.IntegerFieldsRoundTrip :=
  ⟨decodeUInt_encodeUInt, decodeSInt_encodeSInt, fun v =>
    ⟨binaryDigits v v, rfl, C_notMem_binaryDigits v v, head?_binaryDigits_ne_A le_rfl, encodeSInt_natCast v,
      encodeSInt_neg_natCast⟩⟩

/-! ### The symbols of one instruction -/

theorem Operation.code_length :
    ∀ op ∈ Operation.all, 2 ≤ op.code.length ∧ (op.kind = .none → 3 ≤ op.code.length) := by
  decide

/-- R57: a code of two symbols has an operand field after it, which ends in a terminator. -/
theorem OperandField.three_le_length {op : Operation} {n : Int} {field : List Symbol}
    (h : OperandField op.kind n field) : 3 ≤ op.code.length + field.length := by
  obtain ⟨htwo, hthree⟩ := Operation.code_length op op.mem_all
  generalize op.kind = kind at h hthree
  cases h with
  | none => exact hthree rfl
  | nonneg | neg | uint =>
    simp only [List.length_cons, List.length_append, List.length_nil]
    omega

theorem Encodes.three_le_length {i : Instr} {w : List Symbol} (h : Encodes i w) : 3 ≤ w.length := by
  obtain ⟨field, rfl, hfield⟩ := h
  rw [List.length_append]
  exact hfield.three_le_length

/-- Settles O53: the decoded symbols alone decide what is read. -/
theorem decodeReadsItsOwnSymbols : Obligations.DecodeReadsItsOwnSymbols := by
  intro buf o l i h
  obtain ⟨w, rest, hbuf, rfl, hw⟩ := decodeBinary_ok_iff.mp h
  have hlen : o + w.length ≤ buf.length := by
    have hsum := congrArg List.length hbuf
    have hthree := hw.three_le_length
    rw [List.length_drop, List.length_append] at hsum
    omega
  refine ⟨hw.three_le_length, hlen, fun y => decodeBinary_ok_iff.mpr ⟨w, y, ?_, rfl, hw⟩⟩
  have htake : (buf.take (o + w.length)).drop o = w := by
    rw [List.drop_take, hbuf, Nat.add_sub_cancel_left, List.take_left]
  rw [List.drop_append_of_le_length (by rw [List.length_take]; omega), htake]

/-! ### The illegal codes -/

/-- R61: an illegal string and a code differ at some symbol of both. -/
theorem illegalCodes_apart : ∀ bad ∈ illegalCodes, ∀ op ∈ Operation.all,
    ¬ op.code <+: bad ∧ ¬ bad <+: op.code := by
  decide

theorem matchCode_illegal {bad : List Symbol} (h : bad ∈ illegalCodes) (rest : List Symbol) :
    matchCode (bad ++ rest) = none := by
  by_contra hne
  obtain ⟨op, hop⟩ := Option.ne_none_iff_exists'.mp hne
  obtain ⟨h1, h2⟩ := illegalCodes_apart bad h op op.mem_all
  rcases List.prefix_or_prefix_of_prefix (matchCode_eq_some_iff.mp hop) (List.prefix_append bad rest) with hp | hp
  · exact h1 hp
  · exact h2 hp

theorem decodeBinary_of_matchCode_none {buf : List Symbol} {o : Nat} (h : matchCode (buf.drop o) = none) :
    decodeBinary buf o = .error .unrecognizedPrefix := by
  simp [decodeBinary, decodeBinaryWithin, h]

theorem decodeBinary_illegal {bad : List Symbol} (h : bad ∈ illegalCodes) (x y : List Symbol) :
    decodeBinary (x ++ bad ++ y) x.length = .error .unrecognizedPrefix := by
  apply decodeBinary_of_matchCode_none
  rw [List.append_assoc, List.drop_left, matchCode_illegal h]

theorem Symbol.mem_all (c : Symbol) : c ∈ [Symbol.A, .B, .C] := by
  cases c <;> decide

theorem codes_cover : ∀ a ∈ [Symbol.A, .B, .C], ∀ b ∈ [Symbol.A, .B, .C], ∀ c ∈ [Symbol.A, .B, .C],
    ∀ d ∈ [Symbol.A, .B, .C],
      ((Operation.all.map Operation.code ++ illegalCodes).filter (fun p => p.isPrefixOf [a, b, c, d])).length = 1 := by
  decide

/-- Settles O54: no code and no illegal string starts another, and together they leave no four symbols out. -/
theorem illegalCodesRefusedAndCover : Obligations.IllegalCodesRefusedAndCover :=
  ⟨fun _ h => decodeBinary_illegal h,
    fun a b c d => codes_cover a a.mem_all b b.mem_all c c.mem_all d d.mem_all, Operation.mem_all⟩

/-! ### The first error of a program -/

theorem decodeOperand_drop (op : Operation) (buf : List Symbol) (o k : Nat) :
    decodeOperand op (buf.drop o) k = decodeOperand op buf (o + k) := by
  simp only [decodeOperand, decodeSInt, decodeUInt, List.drop_drop, Nat.add_assoc]

/-- The decoder looks at no symbol before its offset. -/
theorem decodeBinary_drop (buf : List Symbol) (o : Nat) : decodeBinary (buf.drop o) 0 = decodeBinary buf o := by
  simp only [decodeBinary, decodeBinaryWithin, List.drop_zero, Nat.zero_add, decodeOperand_drop]

theorem assembleFrom_succ_error_iff {fuel o : Nat} {buf : List Symbol} {e : FormatError} (h : ¬ buf.length ≤ o) :
    assembleFrom (fuel + 1) buf o = .error e ↔
      decodeBinary buf o = .error e ∨
      ∃ l i, decodeBinary buf o = .ok (l, i) ∧ assembleFrom fuel buf (o + l) = .error e := by
  rw [assembleFrom, if_neg h]
  cases decodeBinary buf o with
  | error e' => simp
  | ok r =>
    obtain ⟨l, i⟩ := r
    dsimp only
    cases hrest : assembleFrom fuel buf (o + l) with
    | error e' => simp [hrest]
    | ok Q => simp [hrest]

theorem assembleFrom_error_iff_of_length_le {fuel o : Nat} {buf : List Symbol} {e : FormatError}
    (h : buf.length ≤ o) :
    assembleFrom fuel buf o = .error e ↔
      ∃ x y P, buf.drop o = x ++ y ∧ EncodesProgram P x ∧ y ≠ [] ∧ decodeBinary y 0 = .error e := by
  have hdrop := List.drop_eq_nil_of_le h
  have hend : assembleFrom fuel buf o = .ok [] :=
    (assembleFrom_ok_iff_of_length_le h).mpr (hdrop ▸ EncodesProgram.nil)
  refine iff_of_false (fun he => ?_) ?_
  · cases he.symm.trans hend
  · rintro ⟨x, y, P, hxy, _, hy, _⟩
    rw [hdrop] at hxy
    obtain ⟨_, hnil⟩ := List.append_eq_nil_iff.mp hxy.symm
    exact hy hnil

/-- R92: `assemble` fails exactly where whole instructions lead up to symbols that the decoder refuses. -/
theorem assembleFrom_error_iff {fuel o : Nat} {buf : List Symbol} {e : FormatError} (h : buf.length ≤ o + fuel) :
    assembleFrom fuel buf o = .error e ↔
      ∃ x y P, buf.drop o = x ++ y ∧ EncodesProgram P x ∧ y ≠ [] ∧ decodeBinary y 0 = .error e := by
  induction fuel generalizing o with
  | zero => exact assembleFrom_error_iff_of_length_le h
  | succ fuel ih =>
    by_cases hlen : buf.length ≤ o
    · exact assembleFrom_error_iff_of_length_le hlen
    rw [assembleFrom_succ_error_iff hlen]
    constructor
    · rintro (he | ⟨l, i, hi, he⟩)
      · exact ⟨[], buf.drop o, [], rfl, .nil, by simpa using hlen, (decodeBinary_drop buf o).trans he⟩
      · obtain ⟨w, rest, hbuf, rfl, hw⟩ := decodeBinary_ok_iff.mp hi
        have hpos := hw.length_pos
        obtain ⟨x, y, P, hxy, hx, hy, hye⟩ := (ih (by omega)).mp he
        rw [← List.drop_drop, hbuf, List.drop_left] at hxy
        exact ⟨w ++ x, y, i :: P, by rw [hbuf, hxy, List.append_assoc], .cons hw hx, hy, hye⟩
    · rintro ⟨_, y, _, hxy, hx, hy, hye⟩
      cases hx with
      | nil =>
        rw [List.nil_append] at hxy
        exact .inl ((decodeBinary_drop buf o).symm.trans (hxy ▸ hye))
      | @cons i w P x hw hx =>
        have hpos := hw.length_pos
        rw [List.append_assoc] at hxy
        have hrest : buf.drop (o + w.length) = x ++ y := by rw [← List.drop_drop, hxy, List.drop_left]
        exact .inr ⟨_, i, decodeBinary_ok_iff.mpr ⟨w, _, hxy, rfl, hw⟩,
          (ih (by omega)).mpr ⟨x, y, P, hrest, hx, hy, hye⟩⟩

/-- R92 of the whole byte form. -/
theorem assemble_error_iff {bytes : List Byte} {e : FormatError} :
    assemble bytes = .error e ↔
      ∃ x y P, strip bytes = x ++ y ∧ EncodesProgram P x ∧ y ≠ [] ∧ decodeBinary y 0 = .error e :=
  assembleFrom_error_iff (Nat.zero_add _).ge

/-- Settles O55: bytes that assemble are whole instructions, so what is refused after them is refused at a
place that whole instructions lead up to. -/
theorem assembleGivesFirstError : Obligations.AssembleGivesFirstError := by
  refine ⟨fun before P bytes e hbefore hne he => ?_, fun bytes e he => ?_⟩
  · exact assemble_error_iff.mpr ⟨_, _, P, strip_append before bytes, assemble_ok_iff.mp hbefore, hne, he⟩
  · obtain ⟨x, y, P, hxy, hx, hy, hye⟩ := assemble_error_iff.mp he
    exact ⟨x, y, P, hxy, assembleSymbols_ok_iff.mpr hx, hy, hye⟩

end Sys2Proof

/-! ### The streaming decoder on the decode tree (R87) -/

namespace Sys2Proof.Machine

/-- The symbols that lead from the root of the tree to a node. -/
def TreeNode.path : TreeNode → List Symbol
  | .root => []
  | .a => [.A]
  | .ab => [.A, .B]
  | .ac => [.A, .C]
  | .b => [.B]
  | .ba => [.B, .A]
  | .baa => [.B, .A, .A]
  | .bab => [.B, .A, .B]
  | .bb => [.B, .B]
  | .bc => [.B, .C]
  | .bca => [.B, .C, .A]
  | .bcb => [.B, .C, .B]
  | .c => [.C]
  | .ca => [.C, .A]
  | .cb => [.C, .B]
  | .cc => [.C, .C]

/-- `edge.Follows w`: the edge is where the symbols `w` lead by the code table: to a node further down, to
the operation whose code they are, or out of the table (R54, R61). -/
def TreeEdge.Follows : TreeEdge → List Symbol → Prop
  | .goTo m, w => w = m.path
  | .matched op, w => w = op.code
  | .reject, w => w ∈ illegalCodes

theorem treeEdge_follows (n : TreeNode) (c : Symbol) : (treeEdge n c).Follows (n.path ++ [c]) := by
  cases n <;> cases c <;> simp [treeEdge, TreeEdge.Follows, TreeNode.path, Operation.code, illegalCodes]

theorem matchCode_path (n : TreeNode) : matchCode n.path = none := by
  cases n <;> decide

/-! ### The operand -/

theorem decodeDigits_add (buf : List Symbol) (j k v : Nat) :
    decodeDigits buf (j + k) v = (decodeDigits buf k v).map fun r => (j + r.1, r.2) := by
  induction buf generalizing k v with
  | nil => rfl
  | cons c buf ih =>
    cases c with
    | A => exact ih (k + 1) _
    | B => exact ih (k + 1) _
    | C => rfl

/-- The value that a sign and a magnitude stand for. -/
def signed (negative : Bool) (m : Nat) : Int := if negative then -(m : Int) else (m : Int)

theorem streamDecode_inDigits_eq_decodeDigits (op : Operation) (negative : Bool) (buf : List Symbol) (k v : Nat) :
    streamDecode (.inDigits op negative v) k buf =
      (decodeDigits buf k v).map fun r => (r.1, op.withOperand (signed negative r.2)) := by
  induction buf generalizing k v with
  | nil => rfl
  | cons c buf ih =>
    cases c with
    | A => exact ih (k + 1) _
    | B => exact ih (k + 1) _
    | C => rfl

theorem streamDecode_inDigits (op : Operation) (negative : Bool) (buf : List Symbol) (k : Nat) :
    streamDecode (.inDigits op negative 0) k buf =
      (decodeUInt buf 0).map fun r => (k + r.1, op.withOperand (signed negative r.2)) := by
  have hshift : decodeDigits buf k 0 = _ := decodeDigits_add buf k 0 0
  rw [streamDecode_inDigits_eq_decodeDigits, decodeUInt, List.drop_zero, hshift]
  cases decodeDigits buf 0 0 <;> rfl

/-- R84: a sign symbol, then an unsigned field. -/
theorem decodeSInt_cons_A (buf : List Symbol) :
    decodeSInt (.A :: buf) 0 = (decodeUInt buf 0).map fun r => (r.1 + 1, signed false r.2) := by
  simp only [decodeSInt, List.drop_zero, show decodeUInt (.A :: buf) (0 + 1) = decodeUInt buf 0 from rfl]
  cases decodeUInt buf 0 <;> rfl

theorem decodeSInt_cons_B (buf : List Symbol) :
    decodeSInt (.B :: buf) 0 = (decodeUInt buf 0).map fun r => (r.1 + 1, signed true r.2) := by
  simp only [decodeSInt, List.drop_zero, show decodeUInt (.B :: buf) (0 + 1) = decodeUInt buf 0 from rfl]
  cases decodeUInt buf 0 <;> rfl

/-- After the sign the two decoders count from places one symbol apart. -/
theorem streamDecode_inDigits_after_sign (op : Operation) (negative : Bool) (buf : List Symbol) (k : Nat) :
    streamDecode (.inDigits op negative 0) (k + 1) buf =
      ((decodeUInt buf 0).map fun r => (r.1 + 1, signed negative r.2)).map
        fun r => (k + r.1, op.withOperand r.2) := by
  rw [streamDecode_inDigits]
  cases decodeUInt buf 0 with
  | error e => rfl
  | ok r => simp only [Except.map, Nat.add_assoc, Nat.add_comm 1]

theorem streamDecode_atSign (op : Operation) (buf : List Symbol) (k : Nat) :
    streamDecode (.atSign op) k buf = (decodeSInt buf 0).map fun r => (k + r.1, op.withOperand r.2) := by
  match buf with
  | [] => rfl
  | .C :: _ => rfl
  | .A :: buf =>
    rw [decodeSInt_cons_A]
    exact streamDecode_inDigits_after_sign op false buf k
  | .B :: buf =>
    rw [decodeSInt_cons_B]
    exact streamDecode_inDigits_after_sign op true buf k

/-! ### The simulation -/

theorem decodeBinary_code_append (op : Operation) (buf : List Symbol) :
    decodeBinary (op.code ++ buf) 0 =
      (decodeOperand op buf 0).map fun r => (op.code.length + r.1, op.withOperand r.2) := by
  have hop : matchCode (op.code ++ buf) = some op := matchCode_eq_some_iff.mpr (List.prefix_append _ _)
  have hoperand : decodeOperand op (op.code ++ buf) op.code.length = decodeOperand op buf 0 := by
    rw [← Nat.add_zero op.code.length, ← decodeOperand_drop, List.drop_left]
  simp only [decodeBinary, decodeBinaryWithin, List.drop_zero, hop, Nat.zero_add, hoperand, inRange_limits]
  cases decodeOperand op buf 0 <;> rfl

theorem streamDecode_matched {n : TreeNode} {c : Symbol} {op : Operation} (h : treeEdge n c = .matched op)
    (k : Nat) (buf : List Symbol) :
    streamDecode (.inCode n) k (c :: buf) =
      (decodeOperand op buf 0).map fun r => (k + 1 + r.1, op.withOperand r.2) := by
  simp only [streamDecode, streamSymbol, h, decodeOperand]
  cases op.kind with
  | none => rfl
  | sint => exact streamDecode_atSign op buf (k + 1)
  | uint =>
    dsimp only
    rw [streamDecode_inDigits]
    cases decodeUInt buf 0 <;> rfl

/-- The simulation: at a node the streaming decoder goes on as the table decoder does from the start of the
path. -/
theorem streamDecode_inCode (n : TreeNode) (buf : List Symbol) :
    streamDecode (.inCode n) n.path.length buf = decodeBinary (n.path ++ buf) 0 := by
  induction buf generalizing n with
  | nil =>
    rw [List.append_nil]
    exact (decodeBinary_of_matchCode_none (o := 0) (matchCode_path n)).symm
  | cons c buf ih =>
    have hfollows := treeEdge_follows n c
    rw [List.append_cons]
    have hlen : (n.path ++ [c]).length = n.path.length + 1 := List.length_append
    cases h : treeEdge n c with
    | goTo m =>
      rw [h] at hfollows
      rw [show n.path ++ [c] = m.path from hfollows] at hlen ⊢
      rw [← ih m, hlen]
      simp only [streamDecode, streamSymbol, h]
    | matched op =>
      rw [h] at hfollows
      rw [show n.path ++ [c] = op.code from hfollows] at hlen ⊢
      rw [streamDecode_matched h, decodeBinary_code_append, hlen]
    | reject =>
      rw [h] at hfollows
      rw [show decodeBinary (n.path ++ [c] ++ buf) 0 = _ from decodeBinary_illegal hfollows [] buf]
      simp only [streamDecode, streamSymbol, h]

/-- Settles O52: the root's path is empty. -/
theorem streamingDecoderAgrees : Obligations.StreamingDecoderAgrees := streamDecode_inCode .root

end Sys2Proof.Machine

/-! ### Refusals: text, ill-formed pairs, finite limits (R51, R96, R98, R100, R209) -/

namespace Sys2Proof.Machine

/-! ### Text: tokens and mnemonics (R66, R96) -/

theorem splitAt_ne_nil (sep : Char) (t : Text) : splitAt sep t ≠ [] := by
  cases t with
  | nil => simp [splitAt]
  | cons c t =>
    rw [splitAt]
    split
    · simp
    · split <;> simp

theorem splitAt_cons_of_ne {sep c : Char} (h : c ≠ sep) (t : Text) :
    ∃ piece pieces, splitAt sep t = piece :: pieces ∧ splitAt sep (c :: t) = (c :: piece) :: pieces := by
  obtain ⟨piece, pieces, ht⟩ := List.exists_cons_of_ne_nil (splitAt_ne_nil sep t)
  exact ⟨piece, pieces, ht, by simp [splitAt, h, ht]⟩

theorem splitAt_cons_sep (sep : Char) (t : Text) : splitAt sep (sep :: t) = [] :: splitAt sep t := by
  simp [splitAt]

/-- `k` separators give `k + 1` pieces. -/
theorem length_splitAt (sep : Char) (t : Text) : (splitAt sep t).length = t.count sep + 1 := by
  induction t with
  | nil => rfl
  | cons c t ih =>
    by_cases hc : c = sep
    · subst hc
      rw [splitAt_cons_sep, List.length_cons, ih, List.count_cons_self]
    · obtain ⟨piece, pieces, ht, hct⟩ := splitAt_cons_of_ne hc t
      rw [ht, List.length_cons] at ih
      rw [hct, List.length_cons, ih, List.count_cons_of_ne hc]

theorem decodeTokens_of_three_le {tokens : List Text} (h : 3 ≤ tokens.length) :
    decodeTokens tokens = .error .tooManyTokens := by
  match tokens with
  | _ :: _ :: _ :: _ => rfl
  | [] | [_] | [_, _] => simp at h

theorem decodeText_of_one_token {m : Text} (hm : ' ' ∉ m) : decodeText m = decodeTokens [m] := by
  rw [decodeText, splitAt_of_notMem hm]

theorem decodeText_of_two_tokens {m tok : Text} (hm : ' ' ∉ m) (htok : ' ' ∉ tok) :
    decodeText (m ++ ' ' :: tok) = decodeTokens [m, tok] := by
  rw [decodeText, splitAt_append_sep hm, splitAt_of_notMem htok]

theorem operationOfMnemonic_eq_none {m : Text} (h : ∀ op, mnemonic op ≠ m) : operationOfMnemonic m = none := by
  simp [operationOfMnemonic, h]

/-- An operand-bearing mnemonic with a token: the token decides. -/
theorem decodeText_operand {op : Operation} {tok : Text} (hk : op.kind ≠ .none) (htok : ' ' ∉ tok) :
    decodeText (mnemonic op ++ ' ' :: tok) = decodeTextOperand op tok := by
  obtain ⟨hspace, _⟩ := separators_notMem_mnemonic op
  rw [decodeText_of_two_tokens hspace htok]
  simp [decodeTokens, hk]

/-! ### A blank line (R98) -/

theorem decodeLines_blank (P : Program) (more : List Text) :
    decodeLines (P.map encodeText ++ [] :: more) = .error .unknownMnemonic := by
  induction P with
  | nil => rfl
  | cons i P ih => simp only [List.map_cons, List.cons_append, decodeLines, decodeText_encodeText, ih]

theorem splitAt_toText_append (P : Program) (rest : Text) :
    splitAt Config.lineSep (toText P ++ rest) = P.map encodeText ++ splitAt Config.lineSep rest := by
  induction P with
  | nil => rfl
  | cons i P ih =>
    have hcons : toText (i :: P) ++ rest = encodeText i ++ Config.lineSep :: (toText P ++ rest) := by simp [toText]
    rw [hcons, splitAt_append_sep (lineSep_notMem_encodeText i), ih, List.map_cons, List.cons_append]

/-- At most the last of the lines after a blank one is dropped. -/
theorem dropTrailingEmpty_blank (lines more : List Text) (h : more ≠ []) :
    ∃ more', dropTrailingEmpty (lines ++ [] :: more) = lines ++ [] :: more' := by
  unfold dropTrailingEmpty
  split
  · exact ⟨more.dropLast, by rw [List.dropLast_append_of_ne_nil (by simp), List.dropLast_cons_of_ne_nil h]⟩
  · exact ⟨more, rfl⟩

theorem fromText_blank (P : Program) (rest : Text) :
    fromText (toText P ++ Config.lineSep :: rest) = .error .unknownMnemonic := by
  obtain ⟨more, hmore⟩ := dropTrailingEmpty_blank (P.map encodeText) _ (splitAt_ne_nil Config.lineSep rest)
  rw [fromText, splitAt_toText_append, splitAt_cons_sep, hmore, decodeLines_blank]

/-! ### Folding the case (R96) -/

/-- The upper-case letters by their code points. -/
theorem exists_codePoint_of_upper {c : Char} (h : 'A' ≤ c ∧ c ≤ 'Z') :
    ∃ n, 65 ≤ n ∧ n ≤ 90 ∧ c = Char.ofNat n := by
  obtain ⟨hA, hZ⟩ := h
  exact ⟨c.toNat, UInt32.le_iff_toNat_le.mp hA, UInt32.le_iff_toNat_le.mp hZ, (Char.ofNat_toNat c).symm⟩

/-- The case of a character is all that folding takes away: it makes no separator, no sign and no digit. -/
theorem foldCase_keeps (c : Char) :
    foldCase (foldCase c) = foldCase c ∧ (foldCase c = ' ' ↔ c = ' ') ∧ (foldCase c = '-' ↔ c = '-') ∧
      digitValue (foldCase c) = digitValue c := by
  by_cases h : 'A' ≤ c ∧ c ≤ 'Z'
  · obtain ⟨n, hA, hZ, rfl⟩ := exists_codePoint_of_upper h
    interval_cases n <;> decide
  · have hc : foldCase c = c := if_neg h
    rw [hc, hc]
    exact ⟨rfl, Iff.rfl, Iff.rfl, rfl⟩

@[simp] theorem foldCase_foldCase (c : Char) : foldCase (foldCase c) = foldCase c := by
  obtain ⟨h, _⟩ := foldCase_keeps c
  exact h

theorem foldCase_eq_space (c : Char) : foldCase c = ' ' ↔ c = ' ' := by
  obtain ⟨_, h, _⟩ := foldCase_keeps c
  exact h

theorem foldCase_eq_minus (c : Char) : foldCase c = '-' ↔ c = '-' := by
  obtain ⟨_, _, h, _⟩ := foldCase_keeps c
  exact h

@[simp] theorem digitValue_foldCase (c : Char) : digitValue (foldCase c) = digitValue c := by
  obtain ⟨_, _, _, h⟩ := foldCase_keeps c
  exact h

theorem splitAt_map_foldCase (t : Text) :
    splitAt ' ' (t.map foldCase) = (splitAt ' ' t).map (List.map foldCase) := by
  induction t with
  | nil => rfl
  | cons c t ih =>
    rw [List.map_cons]
    by_cases hc : c = ' '
    · rw [(foldCase_eq_space c).mpr hc, hc, splitAt_cons_sep, splitAt_cons_sep, ih, List.map_cons, List.map_nil]
    · obtain ⟨piece, pieces, ht, hct⟩ := splitAt_cons_of_ne hc t
      rw [hct, splitAt, if_neg (mt (foldCase_eq_space c).mp hc), ih, ht]
      rfl

theorem accumulateDecimal_map_foldCase (t : Text) (acc : Nat) :
    accumulateDecimal (t.map foldCase) acc = accumulateDecimal t acc := by
  induction t generalizing acc with
  | nil => rfl
  | cons c t ih => simp only [List.map_cons, accumulateDecimal, digitValue_foldCase, ih]

theorem decodeDecimalNat_map_foldCase (t : Text) : decodeDecimalNat (t.map foldCase) = decodeDecimalNat t := by
  simp only [decodeDecimalNat, List.map_eq_nil_iff, accumulateDecimal_map_foldCase]

theorem decodeDecimal_map_foldCase (t : Text) : decodeDecimal (t.map foldCase) = decodeDecimal t := by
  cases t with
  | nil => rfl
  | cons c t =>
    have hcons := decodeDecimalNat_map_foldCase (c :: t)
    rw [List.map_cons] at hcons ⊢
    simp only [decodeDecimal, foldCase_eq_minus, hcons, decodeDecimalNat_map_foldCase]

theorem decodeTokens_map_foldCase (tokens : List Text) :
    decodeTokens (tokens.map (List.map foldCase)) = decodeTokens tokens := by
  have hfold (m : Text) : (m.map foldCase).map foldCase = m.map foldCase := by simp
  match tokens with
  | [] => rfl
  | [m] => simp only [List.map_cons, List.map_nil, decodeTokens, hfold]
  | [m, tok] =>
    simp only [List.map_cons, List.map_nil, decodeTokens, hfold, decodeTextOperand, decodeDecimal_map_foldCase]
  | _ :: _ :: _ :: _ => rfl

/-! ### The text decoder's refusals -/

theorem decodeText_unknownMnemonic {m tok : Text} (hm : ' ' ∉ m) (htok : ' ' ∉ tok)
    (h : ∀ op, mnemonic op ≠ m.map foldCase) :
    decodeText m = .error .unknownMnemonic ∧ decodeText (m ++ ' ' :: tok) = .error .unknownMnemonic := by
  rw [decodeText_of_one_token hm, decodeText_of_two_tokens hm htok]
  simp only [decodeTokens, operationOfMnemonic_eq_none h, and_self]

theorem decodeText_missingOperand {op : Operation} (hk : op.kind ≠ .none) :
    decodeText (mnemonic op) = .error .missingOperand := by
  obtain ⟨hspace, _⟩ := separators_notMem_mnemonic op
  rw [decodeText_of_one_token hspace]
  simp [decodeTokens, hk]

theorem decodeText_unexpectedOperand {op : Operation} {tok : Text} (hk : op.kind = .none) (htok : ' ' ∉ tok) :
    decodeText (mnemonic op ++ ' ' :: tok) = .error .unexpectedOperand := by
  obtain ⟨hspace, _⟩ := separators_notMem_mnemonic op
  rw [decodeText_of_two_tokens hspace htok]
  simp [decodeTokens, hk]

theorem decodeText_negativeLabel {op : Operation} {m : Nat} (hk : op.kind = .uint) (hm : 0 < m) :
    decodeText (mnemonic op ++ ' ' :: encodeDecimal (-(m : Int))) = .error .negativeLabel := by
  rw [decodeText_operand (by simp [hk]) (notMem_encodeDecimal (by decide) (by decide) _)]
  simp [decodeTextOperand, decodeDecimal_encodeDecimal, hk, hm]

theorem decodeText_nonNumericOperand {op : Operation} {tok : Text} (hk : op.kind ≠ .none) (htok : ' ' ∉ tok)
    (hn : decodeDecimal tok = none) : decodeText (mnemonic op ++ ' ' :: tok) = .error .nonNumericOperand := by
  rw [decodeText_operand hk htok]
  simp only [decodeTextOperand, hn]

/-- Settles O57: the number of tokens is the number of spaces and one more, and folding a line's case folds
that of each token. -/
theorem textDecoderRefusals : Obligations.TextDecoderRefusals := by
  refine ⟨fun line h => decodeTokens_of_three_le ?_, fun _ _ => decodeText_unknownMnemonic, fromText_blank,
    fun _ => decodeText_missingOperand, fun _ _ => decodeText_unexpectedOperand,
    fun _ _ => decodeText_negativeLabel, fun _ _ => decodeText_nonNumericOperand, fun line => ?_⟩
  · rw [length_splitAt]
    omega
  · rw [decodeText, splitAt_map_foldCase, decodeTokens_map_foldCase, decodeText]

/-! ### Ill-formed pairs (R51, R100) -/

theorem check_of_not_wellFormed {r : RawInstr} (h : r.wellFormed = false) :
    r.check = .error .illFormedInstruction := by
  simp [RawInstr.check, h]

theorem toRaw_withOperand {r : RawInstr} (h : r.wellFormed = true) : (r.op.withOperand r.operand).toRaw = r := by
  rw [Instr.toRaw, Operation.op_withOperand, Operation.operand_withOperand h]

/-- Settles O58: both encoders check the pair first, and a pair that passes is the pair of an instruction. -/
theorem illFormedPairsAreRefused : Obligations.IllFormedPairsAreRefused := by
  refine ⟨fun r h => ?_, fun r => ⟨fun h => ⟨_, toRaw_withOperand h⟩, ?_⟩⟩
  · simp only [encodeBinaryRaw, encodeTextRaw, check_of_not_wellFormed h, and_self]
  · rintro ⟨i, rfl⟩
    exact i.wellFormed

/-! ### Finite limits (R209) -/

variable {L : Limits}

theorem admitsPush_iff {v : Int} {len : Nat} :
    admitsPush L v len = true ↔ L.admitsValue v = true ∧ ∀ c, L.stackCap = some c → len + 1 ≤ c := by
  cases h : L.stackCap <;> simp [admitsPush, h]

theorem admitsCall_iff {v len : Nat} :
    admitsCall L v len = true ↔ L.admitsValue v = true ∧ ∀ c, L.callCap = some c → len + 1 ≤ c := by
  cases h : L.callCap <;> simp [admitsCall, h]

/-- A value outside the range or a stack past its capacity is not admitted. -/
theorem not_within_of_past {cap : Option Nat} {v : Int} {len : Nat}
    (h : L.admitsValue v = false ∨ ∃ c, cap = some c ∧ c < len + 1) :
    ¬ (L.admitsValue v = true ∧ ∀ c, cap = some c → len + 1 ≤ c) := by
  rintro ⟨hv, hcap⟩
  rcases h with hv' | ⟨c, hc, hlt⟩
  · simp [hv] at hv'
  · exact absurd (hcap c hc) hlt.not_ge

theorem constructWithin_eq_none_iff {P : Program} {answers : List ChanAnswer} {m : Nat} (h : L.progMax = some m) :
    constructWithin L P answers = none ↔ m < P.length := by
  simp [constructWithin, admitsProgram, h]

theorem pushWithin_of_admits {v : Int} {s : State} (h : admitsPush L v s.stack.length = true)
    (rest : State → Outcome) : pushWithin L v s rest = rest (s.setStack (s.stack ++ [v])) := if_pos h

theorem pushWithin_raises {v : Int} {s : State} (h : ¬ admitsPush L v s.stack.length = true)
    (rest : State → Outcome) : Raises .resourceLimit s (pushWithin L v s rest) := by
  rw [pushWithin, if_neg h]
  exact raise_raises _ s

theorem rpushWithin_of_admits {v : Nat} {s : State} (h : admitsCall L v s.calls.length = true)
    (rest : State → Outcome) : rpushWithin L v s rest = rest (s.setCalls (s.calls ++ [v])) := if_pos h

theorem rpushWithin_raises {v : Nat} {s : State} (h : ¬ admitsCall L v s.calls.length = true)
    (rest : State → Outcome) : Raises .resourceLimit s (rpushWithin L v s rest) := by
  rw [rpushWithin, if_neg h]
  exact raise_raises _ s

theorem memWriteWithin_of_admits {a v : Int} (ha : L.admitsValue a = true) (hv : L.admitsValue v = true) (s : State)
    (rest : State → Outcome) : memWriteWithin L a v s rest = rest (s.setHeap (s.heap.write a v)) := by
  simp [memWriteWithin, ha, hv]

theorem memWriteWithin_raises {a v : Int} (h : L.admitsValue a = false ∨ L.admitsValue v = false) (s : State)
    (rest : State → Outcome) : Raises .resourceLimit s (memWriteWithin L a v s rest) := by
  have hnot : ¬ (L.admitsValue a && L.admitsValue v) = true := by
    rcases h with h | h <;> simp [h]
  rw [memWriteWithin, if_neg hnot]
  exact raise_raises _ s

/-- The decoder under limits is the unbounded one and then the range check of the operand: what an operand
field stands for is the operand of the instruction. -/
theorem decodeBinaryWithin_eq (L : Limits) (buf : List Symbol) (o : Nat) :
    decodeBinaryWithin L buf o = (decodeBinary buf o).bind fun r => inRange L r.2.operand r := by
  unfold decodeBinary decodeBinaryWithin
  cases matchCode (buf.drop o) with
  | none => rfl
  | some op =>
    dsimp only
    cases hoperand : decodeOperand op buf (o + op.code.length) with
    | error e => rfl
    | ok r =>
      obtain ⟨k, n⟩ := r
      obtain ⟨field, _, _, _, hfield⟩ := decodeOperand_ok_iff.mp hoperand
      simp only [inRange_limits, Except.bind, Operation.operand_withOperand hfield.wellFormed]

section

variable {buf : List Symbol} {o l : Nat} {i : Instr}

theorem decodeBinaryWithin_of_admits (h : decodeBinary buf o = .ok (l, i)) (hi : L.admitsValue i.operand = true) :
    decodeBinaryWithin L buf o = .ok (l, i) := by
  simp only [decodeBinaryWithin_eq, h, Except.bind, inRange, if_pos hi]

theorem decodeBinaryWithin_of_not_admits (h : decodeBinary buf o = .ok (l, i))
    (hi : L.admitsValue i.operand = false) : decodeBinaryWithin L buf o = .error .operandRange := by
  simp [decodeBinaryWithin_eq, h, Except.bind, inRange, hi]

theorem decodeBinaryWithin_of_error {e : FormatError} (h : decodeBinary buf o = .error e) :
    decodeBinaryWithin L buf o = .error e := by
  simp only [decodeBinaryWithin_eq, h, Except.bind]

theorem decodeBinary_of_decodeBinaryWithin {r : Nat × Instr} (h : decodeBinaryWithin L buf o = .ok r) :
    decodeBinary buf o = .ok r := by
  cases hdec : decodeBinary buf o with
  | error e => cases (decodeBinaryWithin_of_error hdec).symm.trans h
  | ok r' =>
    obtain ⟨l, i⟩ := r'
    cases hi : L.admitsValue i.operand with
    | true => exact (decodeBinaryWithin_of_admits hdec hi).symm.trans h
    | false => cases (decodeBinaryWithin_of_not_admits hdec hi).symm.trans h

end

/-- Settles O60: each operation under limits is the unbounded one behind a test, and a failed test raises or
refuses. -/
theorem finiteLimitsFaultNeverWrap : Obligations.FiniteLimitsFaultNeverWrap :=
  ⟨rfl, fun _ _ => decide_eq_true_iff,
    fun _ _ _ rest h => pushWithin_raises (mt admitsPush_iff.mp (not_within_of_past h)) rest,
    fun _ _ _ rest hv hcap => pushWithin_of_admits (admitsPush_iff.mpr ⟨hv, hcap⟩) rest,
    fun _ _ _ rest h => rpushWithin_raises (mt admitsCall_iff.mp (not_within_of_past h)) rest,
    fun _ _ _ rest hv hcap => rpushWithin_of_admits (admitsCall_iff.mpr ⟨hv, hcap⟩) rest,
    fun _ _ _ s rest h => memWriteWithin_raises h s rest,
    fun _ _ _ s rest ha hv => memWriteWithin_of_admits ha hv s rest,
    fun _ _ _ _ => constructWithin_eq_none_iff,
    fun _ _ _ _ => decodeBinary_of_decodeBinaryWithin, fun _ _ _ _ => decodeBinaryWithin_of_error,
    fun _ _ _ _ _ => decodeBinaryWithin_of_admits, fun _ _ _ _ _ => decodeBinaryWithin_of_not_admits⟩

end Sys2Proof.Machine

/-! ### The reset state and the sample words (R54, R58, R59, R230) -/

namespace Sys2Proof.Machine

/-- Settles O1: the empty heap reads 0 everywhere, and the taken parameters refuse no Program. -/
theorem resetAndFreshEngineState : Obligations.ResetAndFreshEngineState :=
  ⟨⟨rfl, Memory.read_nil, rfl, rfl, rfl, rfl, rfl⟩, fun _ _ => construct_eq_some_iff.mpr rfl⟩

/-- Settles O59: the decoder is run on each word. -/
theorem sampleWordsDecode : Obligations.SampleWordsDecode := by
  unfold Obligations.SampleWordsDecode
  decide

end Sys2Proof.Machine
